-- ==== Sys2Proof/Word.lean ====
section
/-! DEFINITION. The byte and the block, the two kinds of data the engine handles (R10, R11 of spec/00_scope.md). -/

namespace Sys2Proof

/-- A byte, bit 0 the least significant (R10). -/
abbrev Byte := BitVec 8

/-- A 16-byte block of the cipher (BLK of R7), byte 0 first (R11). -/
abbrev Block := Vector Byte 16

end Sys2Proof
end

