-- ==== Sys2Proof/Machine/Bytes.lean ====
section
/-! DEFINITION. Byte strings and numbers (R11, R12 of spec/00_scope.md). -/

namespace Sys2Proof.Machine

/-- `be_k(v)`, the `k`-byte big-endian encoding of `v` (R12). -/
def be (k v : Nat) : List Byte :=
  (List.range k).map fun j => BitVec.ofNat 8 (v >>> (8 * (k - 1 - j)))

/-- `pad16(x)`, the zero bytes that bring a length to a multiple of 16 (R12). -/
def pad16 (x : Nat) : Nat := (16 - x % 16) % 16

/-- `ceil(x/16)` (R12). -/
def ceil16 (x : Nat) : Nat := (x + 15) / 16

/-- Byte `j` of a byte register; zero at and beyond its end, which no rule reads. -/
def byteAt {n : Nat} (v : Vector Byte n) (j : Nat) : Byte := if h : j < n then v[j] else 0

/-- The block of a 16-byte string (log 13: a string of another length is cut or zero-filled, which no run
does). -/
def blockOf (l : List Byte) : Block := Vector.ofFn fun j => l.getD j 0

/-- `a ⊕ b` on blocks (R11). -/
def xorBlock (a b : Block) : Block := Vector.ofFn fun j => a[j] ^^^ b[j]

/-- `b[0..m) ‖ zeros(16 − m)`: the first `m` bytes of a block, the rest zero (R154, R176). -/
def keepBytes (m : Nat) (b : Block) : Block := Vector.ofFn fun j => if j.val < m then b[j] else 0

/-- `b[0..c)`, the first `c ≤ 16` bytes of a block (R11). -/
def firstBytes (c : Nat) (b : Block) : List Byte := (List.range c).map (byteAt b)

/-- `s ⊕ t` on byte strings of one length (R11). -/
def xorBytes (s t : List Byte) : List Byte := List.zipWith (fun a b => a ^^^ b) s t

/-- The word whose bytes, the most significant first, are these: the packing of the cipher port (R72). -/
def packBytes (l : List Byte) : Nat := l.foldl (fun acc b => acc * 256 + b.toNat) 0

/-- Byte `j` of an 8-byte register in the big-endian byte order of the register map (R35, R36, R71). -/
def regByte (v : BitVec 64) (j : Nat) : Byte := v.extractLsb' (8 * (7 - j)) 8

/-- `v` with byte `j` of its big-endian bytes replaced (R35, R36, R71). -/
def setRegByte (v : BitVec 64) (j : Nat) (b : Byte) : BitVec 64 :=
  (v &&& ~~~((255 : BitVec 64) <<< (8 * (7 - j)))) ||| (b.setWidth 64 <<< (8 * (7 - j)))

end Sys2Proof.Machine
end

