-- ==== Sys2Proof/Syntax.lean ====
section
/-! DEFINITION. The instructions: one constructor for each of the 26 rows of spec/opcode_table.json. -/

namespace Sys2Proof

/-- The four address spaces a transaction names (R60, R92). -/
inductive Space where
  | reg | aad | din | dout
deriving DecidableEq, Repr

/-- The three byte memories (R51). -/
inductive Buffer where
  | aad | din | dout
deriving DecidableEq, Repr, Inhabited

/-- Host transactions (format HTX, R91) and micro-operations (format PHASE, R110): the two levels at which
anything is decoded (R90). A read carries no DATA, which is ignored (R95). -/
inductive Instr where
  -- commands: a write of CMD (R93)
  | cmdNop
  | encrypt
  | decrypt
  | cmdRsvd (data : Byte)
  -- the other transactions of space REG (R67)
  | statusW (data : Byte)
  | regWr (off : BitVec 64) (data : Byte)
  | regRd (off : BitVec 64)
  -- transactions of the buffers (R63, R64, R65)
  | aadWr (off : BitVec 64) (data : Byte)
  | aadRd (off : BitVec 64)
  | dinWr (off : BitVec 64) (data : Byte)
  | dinRd (off : BitVec 64)
  | doutWr (off : BitVec 64) (data : Byte)
  | doutRd (off : BitVec 64)
  -- micro-operations (R110)
  | idle
  | check
  | macB0
  | macAad
  | macPay
  | macFinal
  | ksS0
  | ksBlk
  | tagMask
  | ctCompare
  | fin
  | errfin
  /-- The reserved codes 0xC to 0xF (R111), `low` their two low bits. -/
  | phaseRsvd (low : BitVec 2)
deriving DecidableEq, Repr

end Sys2Proof
end

