-- ==== Sys2Proof/WellFormed.lean ====
section
/-! DEFINITION. Which terms of `Instr` some word stands for (R93, R94). -/

namespace Sys2Proof

/-- A reserved command holds none of the three assigned values (R93); a plain register write names neither
CMD nor STATUS, which have rows of their own (R94). -/
def Instr.wellFormed : Instr → Bool
  | .cmdRsvd data => 3 ≤ data.toNat
  | .regWr off _ => 2 ≤ off.toNat
  | .cmdNop | .encrypt | .decrypt | .statusW _ | .regRd _ => true
  | .aadWr _ _ | .aadRd _ | .dinWr _ _ | .dinRd _ | .doutWr _ _ | .doutRd _ => true
  | .idle | .check | .macB0 | .macAad | .macPay | .macFinal | .ksS0 | .ksBlk | .tagMask => true
  | .ctCompare | .fin | .errfin | .phaseRsvd _ => true

/-- Whether the instruction is a host transaction (format HTX) rather than a micro-operation (R90). -/
def Instr.isHost : Instr → Bool
  | .cmdNop | .encrypt | .decrypt | .cmdRsvd _ | .statusW _ | .regWr _ _ | .regRd _ => true
  | .aadWr _ _ | .aadRd _ | .dinWr _ _ | .dinRd _ | .doutWr _ _ | .doutRd _ => true
  | .idle | .check | .macB0 | .macAad | .macPay | .macFinal | .ksS0 | .ksBlk | .tagMask => false
  | .ctCompare | .fin | .errfin | .phaseRsvd _ => false

end Sys2Proof
end

