-- ==== Sys2Proof/Decode.lean ====
section
/-! DEFINITION. The decoders of the two levels (R90 to R95, R110, R111), the encoders, and the form in bytes
by which the host names an instruction. -/

namespace Sys2Proof

/-- SPACE (R92): all four values are assigned. -/
def Space.ofBits (b : BitVec 2) : Space :=
  match b.toNat with
  | 0 => .reg
  | 1 => .aad
  | 2 => .din
  | _ => .dout

/-- The SPACE field of a space (R92). -/
def Space.code : Space → Nat
  | .reg => 0
  | .aad => 1
  | .din => 2
  | .dout => 3

/-- A write of CMD, by its DATA (R93). -/
def decodeCommand (data : Byte) : Instr :=
  match data.toNat with
  | 0 => .cmdNop
  | 1 => .encrypt
  | 2 => .decrypt
  | _ => .cmdRsvd data

/-- The fields of a host transaction (R91). -/
def htxIsWrite (w : BitVec 75) : Bool := w.extractLsb' 74 1 = 1#1
def htxSpace (w : BitVec 75) : Space := Space.ofBits (w.extractLsb' 72 2)
def htxOff (w : BitVec 75) : BitVec 64 := w.extractLsb' 8 64
def htxData (w : BitVec 75) : Byte := w.extractLsb' 0 8

/-- A write, in the order of R94. -/
def decodeWrite (space : Space) (off : BitVec 64) (data : Byte) : Instr :=
  match space with
  | .reg => if off.toNat = 0 then decodeCommand data else if off.toNat = 1 then .statusW data else .regWr off data
  | .aad => .aadWr off data
  | .din => .dinWr off data
  | .dout => .doutWr off data

/-- A read; its DATA is ignored (R95). -/
def decodeRead (space : Space) (off : BitVec 64) : Instr :=
  match space with
  | .reg => .regRd off
  | .aad => .aadRd off
  | .din => .dinRd off
  | .dout => .doutRd off

/-- The bus interface's decoder. Total: no host transaction is illegal (R95). -/
def decodeHtx (w : BitVec 75) : Instr :=
  if htxIsWrite w then decodeWrite (htxSpace w) (htxOff w) (htxData w) else decodeRead (htxSpace w) (htxOff w)

/-- The sequencer's decoder of W.PHASE (R110, R111). -/
def decodePhase (c : BitVec 4) : Instr :=
  match c.toNat with
  | 0x0 => .idle
  | 0x1 => .check
  | 0x2 => .macB0
  | 0x3 => .macAad
  | 0x4 => .macPay
  | 0x5 => .macFinal
  | 0x6 => .ksS0
  | 0x7 => .ksBlk
  | 0x8 => .tagMask
  | 0x9 => .ctCompare
  | 0xA => .fin
  | 0xB => .errfin
  | _ => .phaseRsvd (c.extractLsb' 0 2)

/-- Why a string of bytes is no instruction. -/
inductive DecodeError where
  /-- It is neither the one byte of a micro-operation nor the ten bytes of a transaction. -/
  | badLength
  /-- A bit above the 4 bits of a code or the 75 bits of a transaction is set. -/
  | bitsAboveWord
deriving DecidableEq, Repr

/-- `k` bytes of `v`, the least significant first: the opcode table's numbering of bits (log 12). -/
def leBytes : (k : Nat) → (v : Nat) → List Byte
  | 0, _ => []
  | k + 1, v => BitVec.ofNat 8 v :: leBytes k (v / 256)

/-- The number whose bytes these are, the least significant first. -/
def leValue : List Byte → Nat
  | [] => 0
  | b :: bs => b.toNat + 256 * leValue bs

/-- The decoder of both levels on any string of bytes: one byte is a micro-operation, ten are a transaction,
and anything else is refused by name. -/
def decode (bytes : List Byte) : Except DecodeError Instr :=
  if bytes.length = 1 then
    if leValue bytes < 2 ^ 4 then .ok (decodePhase (BitVec.ofNat 4 (leValue bytes))) else .error .bitsAboveWord
  else if bytes.length = 10 then
    if leValue bytes < 2 ^ 75 then .ok (decodeHtx (BitVec.ofNat 75 (leValue bytes))) else .error .bitsAboveWord
  else .error .badLength

/-- The bytes of an instruction whose bits are `w`, `nbits` of them given (log 12). -/
def tableBytes (nbits w : Nat) : List Byte :=
  leBytes (if nbits ≤ 8 then 1 else if nbits ≤ 80 then 10 else (nbits + 7) / 8) w

/-- The instruction the decoder reads from a word of the opcode table. -/
def decodeTableWord (nbits w : Nat) : Option Instr :=
  match decode (tableBytes nbits w) with
  | .ok i => some i
  | .error _ => none

/-! ### Encoders -/

/-- A transaction as a number (R91: `RW*2^74 + SPACE*2^72 + OFF*2^8 + DATA`). -/
def htxWord (rw : Nat) (space : Space) (off : Nat) (data : Nat) : Nat :=
  rw * 2 ^ 74 + space.code * 2 ^ 72 + off * 2 ^ 8 + data

/-- The number of an instruction's word: its transaction (R91, R93) or its W.PHASE code (R110, R111). -/
def encodeWord : Instr → Nat
  | .cmdNop => htxWord 1 .reg 0 0
  | .encrypt => htxWord 1 .reg 0 1
  | .decrypt => htxWord 1 .reg 0 2
  | .cmdRsvd data => htxWord 1 .reg 0 data.toNat
  | .statusW data => htxWord 1 .reg 1 data.toNat
  | .regWr off data => htxWord 1 .reg off.toNat data.toNat
  | .regRd off => htxWord 0 .reg off.toNat 0
  | .aadWr off data => htxWord 1 .aad off.toNat data.toNat
  | .aadRd off => htxWord 0 .aad off.toNat 0
  | .dinWr off data => htxWord 1 .din off.toNat data.toNat
  | .dinRd off => htxWord 0 .din off.toNat 0
  | .doutWr off data => htxWord 1 .dout off.toNat data.toNat
  | .doutRd off => htxWord 0 .dout off.toNat 0
  | .idle => 0x0
  | .check => 0x1
  | .macB0 => 0x2
  | .macAad => 0x3
  | .macPay => 0x4
  | .macFinal => 0x5
  | .ksS0 => 0x6
  | .ksBlk => 0x7
  | .tagMask => 0x8
  | .ctCompare => 0x9
  | .fin => 0xA
  | .errfin => 0xB
  | .phaseRsvd low => 0xC + low.toNat

/-- The bytes of an instruction. -/
def encode (i : Instr) : List Byte :=
  leBytes (if i.isHost then 10 else 1) (encodeWord i)

/-- The transaction of a host instruction, as the bus carries it (R91). -/
def encodeHtx (i : Instr) : BitVec 75 := BitVec.ofNat 75 (encodeWord i)

/-- The W.PHASE code of a micro-operation (R110). -/
def encodePhase (i : Instr) : BitVec 4 := BitVec.ofNat 4 (encodeWord i)

end Sys2Proof
end

