-- ==== Sys2Proof/Config.lean ====
section
/-! DEFINITION. What the spec leaves open: the parameters of R8 and R9 and the free values of
93_implementation_defined.md. Every constant here is opaque, so no proof can see its value. -/

namespace Sys2Proof

/-- Who moves in a step (R14, R21). -/
inductive Turn where
  /-- HOST issues its next bus transaction (R61). -/
  | host
  /-- ENGINE takes the micro-operation W.PHASE names, the CIPHER's answer included (R14, R110). -/
  | engine
  /-- ENGINE has its request on the cipher port and the CIPHER has not answered yet (R22, I11; log 9). -/
  | wait
  /-- The platform asserts reset (R260). -/
  | reset
deriving DecidableEq, Repr, Inhabited

namespace Config

/-- `CIPH(K, x)`, the external block cipher (R9, I1): any function of the key bytes and the block. -/
opaque ciph : List Byte → Block → Block

/-- `AAD_CAP` of an engine that comes out of reset (R8, I2). -/
opaque aadCap : BitVec 64

/-- `DATA_CAP` of an engine that comes out of reset (R8, I2). -/
opaque dataCap : BitVec 64

/-- The free value of the `n`-th draw of a byte: a host read the spec leaves unspecified (I3, I4). -/
opaque anyByte : Nat → Byte

/-- The free value of the `n`-th draw of a turn (R14: the agents' steps interleave in any order). -/
opaque anyTurn : Nat → Turn

/-- The unknown contents of a buffer after the `r`-th reset: the byte at an offset that nothing has stored
to since (I3: "any value per byte once at reset"; I5). -/
opaque initialByte : Buffer → (r : Nat) → (off : Nat) → Byte

end Config

end Sys2Proof
end

