-- ==== Sys2Proof/Machine/State.lean ====
section
/-! DEFINITION. The state of the engine (spec/10_state.md) and of what stands at its ports, as plain data,
the reasons a step can stop, and the state after reset (R53). -/

namespace Sys2Proof.Machine

/-- The STATUS fields (R26). Bits 7:4 are reserved and read 0 (R41). -/
structure Status where
  busy : Bool
  done : Bool
  authok : Bool
  wign : Bool
deriving DecidableEq, Repr

/-- The ERR fields (R31). Bits 7 and 3:2 are reserved and read 0. -/
structure Err where
  code : BitVec 2
  cause : BitVec 3
deriving DecidableEq, Repr

/-- The host-visible registers of space REG (R24). CMD stores nothing (R25). -/
structure Regs where
  status : Status
  err : Err
  keyLen : Byte
  nLen : Byte
  tLen : Byte
  aLen : BitVec 64
  pLen : BitVec 64
  key : Vector Byte 32
  nonce : Vector Byte 13
  tagIn : Vector Byte 16
  tagOut : Vector Byte 16
deriving DecidableEq, Repr

/-- The internal working registers `W.*` (R42), with the spec's widths. -/
structure Work where
  op : BitVec 8
  phase : BitVec 4
  idx : BitVec 64
  l : BitVec 4
  m : BitVec 5
  x : Block
  s0 : Block
  t : Block
  u : Block
  aok : Bool
  ecode : BitVec 2
  ecause : BitVec 3
deriving DecidableEq, Repr

/-- A buffer: the bytes stored since reset, by offset. It is canonical when the offsets rise strictly
(`Memory.wf`). An offset that is not listed holds no stored byte (R82), so no entry can equal it. -/
abbrev Memory := List Host.Cell

/-- The three byte memories (R51). -/
structure Buffers where
  aad : Memory
  din : Memory
  dout : Memory
deriving DecidableEq, Repr

/-- A request on the cipher port, as its wires carry it (R22, R72): the key word with unused low lanes
zero, how many key bytes it holds, and the input block's word. -/
structure CipherRequest where
  keyLen : Byte
  key : BitVec 256
  block : BitVec 128
deriving DecidableEq, Repr

/-- The engine's parameters (R8): they belong to the engine and no step changes them (log 4). -/
structure Caps where
  aad : BitVec 64
  data : BitVec 64
deriving DecidableEq, Repr

/-- What stands outside the engine and the model's own counters (logs 1, 2, 7, 16). -/
structure Surroundings where
  /-- The HOST's transactions still to come, the next one first. -/
  host : List (BitVec 75)
  /-- The turns still to come, the next one first; when none is left the turn is a free value. -/
  turns : List Turn
  /-- The bytes that reads have returned to the HOST, the newest first. -/
  returned : List Byte
  /-- How many free values have been drawn. -/
  draws : Nat
  /-- How many resets have been taken since `State.reset`. -/
  resets : Nat
deriving DecidableEq, Repr

/-- The whole machine. -/
structure State where
  regs : Regs
  w : Work
  buf : Buffers
  port : Option CipherRequest
  caps : Caps
  env : Surroundings
deriving DecidableEq, Repr

/-- Why the machine stops. -/
inductive Fault where
  /-- Raised by PHASE_RSVD: W.PHASE holds a reserved code 0xC to 0xF, which has no defined step (R111;
  I6: `stuck`). Safe: the rules never enter such a code, and a stop proves nothing. -/
  | reservedPhase
deriving DecidableEq, Repr

/-- Why an instruction has no meaning. -/
inductive Refusal where
  /-- Raised by an arm of `exec` whose instruction is not modelled yet. Safe: no state follows. No arm
  raises it now. -/
  | notModelled (mnemonic : String)
deriving DecidableEq, Repr

/-- The registers after reset (R53). -/
def Regs.reset : Regs where
  status := { busy := false, done := false, authok := false, wign := false }
  err := { code := 0, cause := 0 }
  keyLen := 0
  nLen := 0
  tLen := 0
  aLen := 0
  pLen := 0
  key := Vector.replicate 32 0
  nonce := Vector.replicate 13 0
  tagIn := Vector.replicate 16 0
  tagOut := Vector.replicate 16 0

/-- The working registers all clear, W.PHASE = IDLE: as reset, FIN and ERRFIN leave them (R42, R53). -/
def Work.clear : Work where
  op := 0
  phase := 0
  idx := 0
  l := 0
  m := 0
  x := Vector.replicate 16 0
  s0 := Vector.replicate 16 0
  t := Vector.replicate 16 0
  u := Vector.replicate 16 0
  aok := false
  ecode := 0
  ecause := 0

/-- No byte stored: every byte of every buffer is unspecified (R53, I3). -/
def Buffers.unspecified : Buffers where
  aad := []
  din := []
  dout := []

/-- The machine right after reset (R53), with nothing planned outside the engine (log 2). -/
def State.reset : State where
  regs := Regs.reset
  w := Work.clear
  buf := Buffers.unspecified
  port := none
  caps := { aad := Config.aadCap, data := Config.dataCap }
  env := { host := [], turns := [], returned := [], draws := 0, resets := 0 }

end Sys2Proof.Machine
end

