-- ==== Sys2Proof/Machine/Flags.lean ====
section
/-! DEFINITION. The STATUS flags and ERR (R26 to R31, R52): the bytes a host reads, and every way a flag
changes. The engine has no other flag (R52). -/

namespace Sys2Proof.Machine

/-- A flag as a bit. -/
def flagBit (b : Bool) : Nat := if b then 1 else 0

/-- The STATUS byte (R26): BUSY bit 0, DONE bit 1, AUTHOK bit 2, WIGN bit 3, bits 7:4 zero (R41). -/
def Status.byte (s : Status) : Byte :=
  BitVec.ofNat 8 (flagBit s.busy + 2 * flagBit s.done + 4 * flagBit s.authok + 8 * flagBit s.wign)

/-- The ERR byte (R31): CODE bits 1:0, CAUSE bits 6:4, bits 3:2 and 7 zero (R41). -/
def Err.byte (e : Err) : Byte := BitVec.ofNat 8 (e.code.toNat + 16 * e.cause.toNat)

/-- ERR = 0x00: no error (R31). -/
def Err.none : Err := { code := 0, cause := 0 }

/-- ERR.CODE values (R31). -/
def codeInvalidParameter : BitVec 2 := 1
def codeMessageTooLong : BitVec 2 := 2

/-- ERR.CAUSE values (R31). -/
def causeNone : BitVec 3 := 0
def causeBadCmd : BitVec 3 := 1
def causeKeyLen : BitVec 3 := 2
def causeNLen : BitVec 3 := 3
def causeTLen : BitVec 3 := 4
def causeALenRange : BitVec 3 := 5
def causePLenRange : BitVec 3 := 6

/-- Command acceptance: BUSY 1, DONE 0, AUTHOK 0, WIGN unchanged (R192). -/
def Status.accepted (s : Status) : Status := { s with busy := true, done := false, authok := false }

/-- Completion: BUSY 0, DONE 1, AUTHOK the verdict, WIGN unchanged (R203, R204). -/
def Status.completed (s : Status) (verdict : Bool) : Status :=
  { s with busy := false, done := true, authok := verdict }

/-- A host write was ignored because BUSY was 1: WIGN is set (R30, R68). -/
def Status.writeIgnored (s : Status) : Status := { s with wign := true }

/-- A write of STATUS: bit 3 = 1 clears WIGN, the other bits are ignored (R26, R30, R67). -/
def Status.written (s : Status) (data : Byte) : Status :=
  { s with wign := s.wign && !data.getLsbD 3 }

end Sys2Proof.Machine
end

