-- ==== Sys2Proof/Machine/Ops.lean ====
section
/-! DEFINITION. The operations that several instructions share: the buffers' memory, the host's side of a
transaction, the sequencer's transfers, the error completion (this engine's exception, R230), reset, and
whose turn it is. -/

namespace Sys2Proof.Machine

/-! ### Memory (R62) -/

/-- The canonical form of a buffer: its offsets rise strictly. -/
abbrev Memory.wf (m : Memory) : Prop := m.Pairwise fun c d => c.1 < d.1

/-- The byte stored at an offset since reset, if any: an offset that is not listed holds none (R82). -/
def Memory.read (m : Memory) (a : Nat) : Option Byte :=
  match m with
  | [] => none
  | (a', b) :: rest => if a' = a then some b else Memory.read rest a

/-- Stores a byte, keeping the offsets rising. -/
def Memory.write (m : Memory) (a : Nat) (b : Byte) : Memory :=
  match m with
  | [] => [(a, b)]
  | (a', b') :: rest =>
    if a < a' then (a, b) :: (a', b') :: rest
    else if a = a' then (a, b) :: rest
    else (a', b') :: Memory.write rest a b

/-- The memory of a buffer. -/
def Buffers.get (m : Buffers) : Buffer → Memory
  | .aad => m.aad
  | .din => m.din
  | .dout => m.dout

/-- The buffers with one memory replaced. -/
def Buffers.set (m : Buffers) (b : Buffer) (v : Memory) : Buffers :=
  match b with
  | .aad => { m with aad := v }
  | .din => { m with din := v }
  | .dout => { m with dout := v }

/-- The capacity of a buffer in bytes (R51, R60). -/
def State.capOf (s : State) : Buffer → Nat
  | .aad => s.caps.aad.toNat
  | .din => s.caps.data.toNat
  | .dout => s.caps.data.toNat

/-- The byte stored at an offset of a buffer since reset, if any. -/
def stored (s : State) (b : Buffer) (off : Nat) : Option Byte := Memory.read (s.buf.get b) off

/-- `B(space, off)`, the byte the engine finds at an offset (R62): the stored byte, or the buffer's unknown
contents since the last reset (R82, I3; log 5). -/
def content (s : State) (b : Buffer) (off : Nat) : Byte :=
  (stored s b off).getD (Config.initialByte b s.env.resets off)

/-- Stores one byte in a buffer. -/
def store (s : State) (b : Buffer) (off : Nat) (v : Byte) : State :=
  { s with buf := s.buf.set b (Memory.write (s.buf.get b) off v) }

/-- `MemRead(space, off, n)` (R62). -/
def memRead (s : State) (b : Buffer) (off n : Nat) : List Byte :=
  (List.range n).map fun j => content s b (off + j)

/-- `MemWrite(space, off, |bytes|, bytes)` (R62). -/
def memWrite (s : State) (b : Buffer) (off : Nat) (bytes : List Byte) : State :=
  match bytes with
  | [] => s
  | v :: rest => memWrite (store s b off v) b (off + 1) rest

/-! ### The host's side of a transaction -/

/-- Every host write but one of STATUS: while BUSY = 1 it is ignored and sets WIGN (R68); otherwise it has
its effect. -/
def hostWrite (s : State) (effect : State) : State :=
  if s.regs.status.busy then { s with regs := { s.regs with status := s.regs.status.writeIgnored } } else effect

/-- A host write of a buffer byte: ignored at or beyond the capacity (R66). -/
def hostStore (s : State) (b : Buffer) (off : Nat) (v : Byte) : State :=
  if off < s.capOf b then store s b off v else s

/-- The byte goes back to the HOST (R61). `none` stands for an unspecified byte: one free value is drawn for
this read (I3, I4). -/
def respond (s : State) (v : Option Byte) : State :=
  match v with
  | some b => { s with env := { s.env with returned := b :: s.env.returned } }
  | none =>
    { s with env := { s.env with
        returned := Config.anyByte s.env.draws :: s.env.returned
        draws := s.env.draws + 1 } }

/-- What a host read of a buffer returns: 0x00 at or beyond the capacity (R66), else the stored byte, and an
unspecified one where nothing has been stored since reset (I3). -/
def hostLoad (s : State) (b : Buffer) (off : Nat) : Option Byte :=
  if off < s.capOf b then stored s b off else some 0

/-- Command acceptance (R192): `W.OP <- v; PHASE <- CHECK`, the flags, `ERR <- 0x00`. -/
def acceptCommand (s : State) (v : Byte) : State :=
  { s with
    w := { s.w with op := v, phase := 1 }
    regs := { s.regs with status := s.regs.status.accepted, err := Err.none } }

/-! ### The sequencer (R110) -/

/-- `PHASE <- p` (R13). -/
def enter (s : State) (p : BitVec 4) : State := { s with w := { s.w with phase := p } }

/-- `W.IDX <- k; PHASE <- p`. -/
def enterAt (s : State) (k : BitVec 64) (p : BitVec 4) : State :=
  { s with w := { s.w with idx := k, phase := p } }

/-- Whether the executing command is ENCRYPT (`W.OP = 0x01`, R93). -/
def isEncrypt (s : State) : Bool := s.w.op.toNat = 1

/-- The failure of a check (`fail(c, z)` of R195): the engine's one way into its error completion. Nothing
else is recorded (R233). -/
def failCheck (s : State) (code : BitVec 2) (cause : BitVec 3) : State :=
  { s with w := { s.w with ecode := code, ecause := cause, phase := 0xB } }

/-- The end of a command (R203, R204): the flags in one step with the verdict, ERR, and `W.* <- 0;
PHASE <- IDLE`. -/
def complete (s : State) (err : Err) (verdict : Bool) : State :=
  { s with
    regs := { s.regs with status := s.regs.status.completed verdict, err := err }
    w := Work.clear }

/-! ### Reset (R260, R261) -/

/-- Taking reset: the registers and working registers as R53, every buffer byte unspecified anew, an
outstanding request discarded. The HOST's plans and the engine's parameters are not the engine's state
(log 8). -/
def takeReset (s : State) : State :=
  { s with
    regs := Regs.reset
    w := Work.clear
    buf := Buffers.unspecified
    port := none
    env := { s.env with resets := s.env.resets + 1 } }

/-! ### Whose turn it is (R14; log 1) -/

/-- The next turn, and the state with it used up: the planned one, or a free value where none is planned. -/
def takeTurn (s : State) : Turn × State :=
  match s.env.turns with
  | t :: rest => (t, { s with env := { s.env with turns := rest } })
  | [] => (Config.anyTurn s.env.draws, { s with env := { s.env with draws := s.env.draws + 1 } })

/-- The HOST's next transaction, decoded (R61, R95), and the state with it issued; nothing where the HOST has
none to issue. -/
def takeTransaction (s : State) : Option (Instr × State) :=
  match s.env.host with
  | w :: rest => some (decodeHtx w, { s with env := { s.env with host := rest } })
  | [] => none

end Sys2Proof.Machine
end

