-- ==== Sys2Proof/Machine/Operands.lean ====
section
/-! DEFINITION. The operands of the micro-operations, which registers hold (R104), and the register map of
space REG as the host reads and writes it (R24 to R41, R67). -/

namespace Sys2Proof.Machine

/-! ### Operands of a command -/

/-- `K = KEY[0..KEYLEN)` (R22, R37). -/
def keyBytes (s : State) : List Byte := s.regs.key.toList.take s.regs.keyLen.toNat

/-- `N`, the nonce length (R33). -/
def nonceLen (s : State) : Nat := s.regs.nLen.toNat

/-- `NONCE[0..N)` (R38). -/
def nonceBytes (s : State) : List Byte := s.regs.nonce.toList.take (nonceLen s)

/-- `a`, the AAD length (R35). -/
def aadLen (s : State) : Nat := s.regs.aLen.toNat

/-- `p`, the payload length (R36). -/
def payLen (s : State) : Nat := s.regs.pLen.toNat

/-- `L`, the length-field width of the executing command (R46). -/
def lenWidth (s : State) : Nat := s.w.l.toNat

/-- `M`, the tag length of the executing command (R46). -/
def tagLen (s : State) : Nat := s.w.m.toNat

/-! ### Space REG -/

/-- What a host read at a REG offset returns (R24, R67). `none` is an unspecified byte: TAGOUT while BUSY = 1
(R69). CMD and KEY are write-only, and reserved offsets, those of 256 and more among them (R94), read 0x00. -/
def regLoad (s : State) (off : Nat) : Option Byte :=
  if off = 0x01 then some s.regs.status.byte
  else if off = 0x02 then some s.regs.err.byte
  else if off = 0x03 then some s.regs.keyLen
  else if off = 0x04 then some s.regs.nLen
  else if off = 0x05 then some s.regs.tLen
  else if 0x08 ≤ off ∧ off ≤ 0x0F then some (regByte s.regs.aLen (off - 0x08))
  else if 0x10 ≤ off ∧ off ≤ 0x17 then some (regByte s.regs.pLen (off - 0x10))
  else if 0x40 ≤ off ∧ off ≤ 0x4C then some (byteAt s.regs.nonce (off - 0x40))
  else if 0x50 ≤ off ∧ off ≤ 0x5F then some (byteAt s.regs.tagIn (off - 0x50))
  else if 0x60 ≤ off ∧ off ≤ 0x6F then
    if s.regs.status.busy then none else some (byteAt s.regs.tagOut (off - 0x60))
  else some 0

/-- What a host write of a plain REG offset leaves in the registers (R24, R67): a read/write register byte
stores the data; read-only and reserved offsets ignore it (R41, R94). -/
def Regs.put (r : Regs) (off : Nat) (v : Byte) : Regs :=
  if off = 0x03 then { r with keyLen := v }
  else if off = 0x04 then { r with nLen := v }
  else if off = 0x05 then { r with tLen := v }
  else if 0x08 ≤ off ∧ off ≤ 0x0F then { r with aLen := setRegByte r.aLen (off - 0x08) v }
  else if 0x10 ≤ off ∧ off ≤ 0x17 then { r with pLen := setRegByte r.pLen (off - 0x10) v }
  else if 0x20 ≤ off ∧ off ≤ 0x3F then { r with key := r.key.setIfInBounds (off - 0x20) v }
  else if 0x40 ≤ off ∧ off ≤ 0x4C then { r with nonce := r.nonce.setIfInBounds (off - 0x40) v }
  else if 0x50 ≤ off ∧ off ≤ 0x5F then { r with tagIn := r.tagIn.setIfInBounds (off - 0x50) v }
  else r

/-- A host write of a plain REG offset. -/
def regStore (s : State) (off : Nat) (v : Byte) : State := { s with regs := s.regs.put off v }

end Sys2Proof.Machine
end

