-- ==== Sys2Proof/Machine/Formatter.lean ====
section
/-! DEFINITION. The Block Formatter (spec/41_block_formatter.md; layouts R96 to R101): pure functions, evaluated
afresh in each micro-operation that uses them (R135). -/

namespace Sys2Proof.Machine

/-- FMT_L (R120): `L = 15 − N`. -/
def fmtL (n : Nat) : Nat := 15 - n

/-- The flags byte of B0 (R97, R98, R121): bit 6 Adata, bits 5:3 `(M−2)/2`, bits 2:0 `L−1`, bit 7 zero. -/
def b0Flags (a m l : Nat) : Byte :=
  BitVec.ofNat 8 (64 * (if 0 < a then 1 else 0) + 8 * ((m - 2) / 2) + (l - 1))

/-- FMT_B0 (R96, R122): `[flags] ‖ nonce[0..N) ‖ be_L(p)`. -/
def fmtB0 (nonce : List Byte) (a p m l : Nat) : Block := blockOf (b0Flags a m l :: nonce ++ be l p)

/-- FMT_APREFIX (R101, R125): the length before the AAD, in the shortest of its forms. -/
def aadHeader (a : Nat) : List Byte :=
  if a = 0 then []
  else if a < 65280 then be 2 a
  else if a < 2 ^ 32 then 0xFF :: 0xFE :: be 4 a
  else 0xFF :: 0xFF :: be 8 a

/-- `nA`, the number of formatted-AAD blocks (R127). -/
def aadBlocks (a : Nat) : Nat :=
  if a = 0 then 0 else ((aadHeader a).length + a + pad16 ((aadHeader a).length + a)) / 16

/-- FA_BYTE(q) (R128): a byte of the formatted AAD, found without forming it. -/
def faByte (s : State) (q : Nat) : Byte :=
  if q < (aadHeader (aadLen s)).length then (aadHeader (aadLen s)).getD q 0
  else if q < (aadHeader (aadLen s)).length + aadLen s then content s .aad (q - (aadHeader (aadLen s)).length)
  else 0

/-- FA_BLOCK(k) (R128). -/
def faBlock (s : State) (k : Nat) : Block := Vector.ofFn fun j => faByte s (16 * k + j.val)

/-- `n = ceil(p/16)`, the number of payload and keystream blocks (R129). -/
def payBlocks (p : Nat) : Nat := ceil16 p

/-- PP_BLOCK(space, k) (R130): a block of the zero-padded payload. -/
def ppBlock (s : State) (b : Buffer) (k : Nat) : Block :=
  Vector.ofFn fun j => if 16 * k + j.val < payLen s then content s b (16 * k + j.val) else 0

/-- FMT_CTR(i) (R99, R100, R131): `[L − 1] ‖ nonce[0..N) ‖ be_L(i)`. -/
def fmtCtr (nonce : List Byte) (l i : Nat) : Block :=
  blockOf (BitVec.ofNat 8 (l - 1) :: nonce ++ be l i)

/-- `nA` of the executing command. -/
def nA (s : State) : Nat := aadBlocks (aadLen s)

/-- `n` of the executing command. -/
def nP (s : State) : Nat := payBlocks (payLen s)

end Sys2Proof.Machine
end

