-- ==== Sys2Proof/Machine/CipherPort.lean ====
section
/-! DEFINITION. The cipher port (R22, R72) and the blocks the five micro-operations send to it. -/

namespace Sys2Proof.Machine

/-- The input block of MAC_B0: B0 (R151). -/
def macB0Input (s : State) : Block := fmtB0 (nonceBytes s) (aadLen s) (payLen s) (tagLen s) (lenWidth s)

/-- The input block of MAC_AAD: `X ⊕ FA_BLOCK(k)` (R152). -/
def macAadInput (s : State) : Block := xorBlock s.w.x (faBlock s s.w.idx.toNat)

/-- Where MAC_PAY finds the plaintext: DIN for ENCRYPT, DOUT for DECRYPT (R153). -/
def paySource (s : State) : Buffer := if isEncrypt s then .din else .dout

/-- The input block of MAC_PAY: `X ⊕ PP_BLOCK(src, k)` (R153). -/
def macPayInput (s : State) : Block := xorBlock s.w.x (ppBlock s (paySource s) s.w.idx.toNat)

/-- The counter block `Ai` of the executing command (R131). -/
def ctrInput (s : State) (i : Nat) : Block := fmtCtr (nonceBytes s) (lenWidth s) i

/-- The block the micro-operation of W.PHASE sends to the cipher; only these five send one (R22). -/
def cipherInput (s : State) : Option Block :=
  match s.w.phase.toNat with
  | 0x2 => some (macB0Input s)
  | 0x3 => some (macAadInput s)
  | 0x4 => some (macPayInput s)
  | 0x6 => some (ctrInput s 0)
  | 0x7 => some (ctrInput s s.w.idx.toNat)
  | _ => none

/-- The words on the port for key `K` and block `x` (R72): byte 0 in the most significant lane, the key's
unused low lanes zero. -/
def requestFor (s : State) (x : Block) : CipherRequest where
  keyLen := s.regs.keyLen
  key := BitVec.ofNat 256 (packBytes (keyBytes s ++ List.replicate (32 - (keyBytes s).length) 0))
  block := BitVec.ofNat 128 (packBytes x.toList)

/-- ENGINE puts up the request of its micro-operation and the CIPHER has not answered yet: the request stands
on the port and nothing else changes (R22, I11; log 9). -/
def raiseRequest (s : State) : State :=
  if s.regs.status.busy then
    match cipherInput s with
    | some x => { s with port := some (requestFor s x) }
    | none => s
  else s

/-- `CIPH(K, x)` with the command's key (R9, R22). -/
def cipher (s : State) (x : Block) : Block := Config.ciph (keyBytes s) x

/-- The response arrives and the micro-operation completes: no request is left on the port (R22). -/
def answered (s : State) : State := { s with port := none }

end Sys2Proof.Machine
end

