-- ==== Sys2Proof/Machine/CbcMac.lean ====
section
/-! DEFINITION. The micro-operations of the CBC-MAC Generator (spec/42_cbc_mac.md). -/

namespace Sys2Proof.Machine

/-- `if n > 0: W.IDX <- 0; PHASE <- MAC_PAY, else: PHASE <- MAC_FINAL` (R151, R152). -/
def enterPayload (s : State) : State := if 0 < nP s then enterAt s 0 0x4 else enter s 0x5

/-- `X <- v` when the cipher has answered. -/
def setX (s : State) (v : Block) : State := { answered s with w := { s.w with x := v } }

/-- MAC_B0 (R151). -/
def execMacB0 (s : State) : Host.Outcome State Fault Refusal :=
  let s' := setX s (cipher s (macB0Input s))
  .next (if 0 < nA s then enterAt s' 0 0x3 else enterPayload s')

/-- MAC_AAD (R152). -/
def execMacAad (s : State) : Host.Outcome State Fault Refusal :=
  let s' := setX s (cipher s (macAadInput s))
  .next (if s.w.idx.toNat + 1 < nA s then enterAt s' (s.w.idx + 1) 0x3 else enterPayload s')

/-- MAC_PAY (R153). -/
def execMacPay (s : State) : Host.Outcome State Fault Refusal :=
  let s' := setX s (cipher s (macPayInput s))
  .next (if s.w.idx.toNat + 1 < nP s then enterAt s' (s.w.idx + 1) 0x4 else enter s' 0x5)

/-- MAC_FINAL (R154): `W.T <- W.X[0..M) ‖ zeros(16 − M)`. -/
def execMacFinal (s : State) : Host.Outcome State Fault Refusal :=
  let s' := { s with w := { s.w with t := keepBytes (tagLen s) s.w.x } }
  .next (enter s' (if isEncrypt s then 0x6 else 0x8))

end Sys2Proof.Machine
end

