-- ==== Sys2Proof/Machine/HostAccess.lean ====
section
/-! DEFINITION. The plain reads and writes of the four spaces (R63 to R69). No read has a side effect on the
engine (R74). -/

namespace Sys2Proof.Machine

/-- STATUS_W (R30, R67): bit 3 = 1 clears WIGN; accepted also while BUSY = 1 (R68). -/
def execStatusW (data : Byte) (s : State) : Host.Outcome State Fault Refusal :=
  .next { s with regs := { s.regs with status := s.regs.status.written data } }

/-- REG_WR (R67, R68). -/
def execRegWr (off : BitVec 64) (data : Byte) (s : State) : Host.Outcome State Fault Refusal :=
  .next (hostWrite s (regStore s off.toNat data))

/-- REG_RD (R67, R69). -/
def execRegRd (off : BitVec 64) (s : State) : Host.Outcome State Fault Refusal :=
  .next (respond s (regLoad s off.toNat))

/-- AAD_WR (R63, R66, R68). -/
def execAadWr (off : BitVec 64) (data : Byte) (s : State) : Host.Outcome State Fault Refusal :=
  .next (hostWrite s (hostStore s .aad off.toNat data))

/-- AAD_RD (R63, R66). -/
def execAadRd (off : BitVec 64) (s : State) : Host.Outcome State Fault Refusal :=
  .next (respond s (hostLoad s .aad off.toNat))

/-- DIN_WR (R64, R66, R68). -/
def execDinWr (off : BitVec 64) (data : Byte) (s : State) : Host.Outcome State Fault Refusal :=
  .next (hostWrite s (hostStore s .din off.toNat data))

/-- DIN_RD (R64, R66). -/
def execDinRd (off : BitVec 64) (s : State) : Host.Outcome State Fault Refusal :=
  .next (respond s (hostLoad s .din off.toNat))

/-- DOUT_WR (R65): DOUT is never host-writable; while BUSY = 1 the write sets WIGN (R68). -/
def execDoutWr (_off : BitVec 64) (_data : Byte) (s : State) : Host.Outcome State Fault Refusal :=
  .next (hostWrite s s)

/-- DOUT_RD (R65, R66); while BUSY = 1 the byte is unspecified (R69; log 6). -/
def execDoutRd (off : BitVec 64) (s : State) : Host.Outcome State Fault Refusal :=
  .next (respond s (if s.regs.status.busy then none else hostLoad s .dout off.toNat))

end Sys2Proof.Machine
end

