-- ==== Sys2Proof/Machine/HostCommand.lean ====
section
/-! DEFINITION. The command writes CMD_NOP, ENCRYPT, DECRYPT and CMD_RSVD (R25, R93, R192 to R194). An accepted
command runs as the micro-operations that follow. -/

namespace Sys2Proof.Machine

/-- CMD_NOP (R193): nothing happens; while BUSY = 1 it sets WIGN like any other write. -/
def execCmdNop (s : State) : Host.Outcome State Fault Refusal := .next (hostWrite s s)

/-- ENCRYPT (R190): accepted by R192 while BUSY = 0. -/
def execEncrypt (s : State) : Host.Outcome State Fault Refusal := .next (hostWrite s (acceptCommand s 0x01))

/-- DECRYPT (R191): accepted by R192 while BUSY = 0. -/
def execDecrypt (s : State) : Host.Outcome State Fault Refusal := .next (hostWrite s (acceptCommand s 0x02))

/-- A reserved command (R194): accepted by R192; CHECK then fails it with BADCMD. -/
def execCmdRsvd (data : Byte) (s : State) : Host.Outcome State Fault Refusal :=
  .next (hostWrite s (acceptCommand s data))

end Sys2Proof.Machine
end

