-- ==== Sys2Proof/Machine/Keystream.lean ====
section
/-! DEFINITION. The micro-operations of the Counter-Mode Keystream (spec/43_keystream.md). -/

namespace Sys2Proof.Machine

/-- `PHASE <- (W.OP = 0x01) ? TAG_MASK : MAC_B0` (R171, R172). -/
def leaveKeystream (s : State) : State := enter s (if isEncrypt s then 0x8 else 0x2)

/-- KS_S0 (R171). -/
def execKsS0 (s : State) : Host.Outcome State Fault Refusal :=
  let s' := { answered s with w := { s.w with s0 := cipher s (ctrInput s 0) } }
  .next (if 0 < nP s then enterAt s' 1 0x7 else leaveKeystream s')

/-- Where KS_BLK reads DIN and writes DOUT: `16(i − 1)` with `i = W.IDX` (R172). -/
def ksOffset (s : State) : Nat := 16 * (s.w.idx.toNat - 1)

/-- How many bytes KS_BLK handles: `c = min(16, p − 16(i − 1))` (R172). -/
def ksCount (s : State) : Nat := min 16 (payLen s - ksOffset s)

/-- What KS_BLK writes: `MemRead(DIN, 16(i−1), c) ⊕ Si[0..c)` (R172). -/
def ksBytes (s : State) : List Byte :=
  xorBytes (memRead s .din (ksOffset s) (ksCount s))
    (firstBytes (ksCount s) (cipher s (ctrInput s s.w.idx.toNat)))

/-- KS_BLK (R172). -/
def execKsBlk (s : State) : Host.Outcome State Fault Refusal :=
  let s' := memWrite (answered s) .dout (ksOffset s) (ksBytes s)
  .next (if s.w.idx.toNat < nP s then enterAt s' (s.w.idx + 1) 0x7 else leaveKeystream s')

/-- `U ‖ zeros(16 − M)` with `U = T[0..M) ⊕ S0[0..M)` (R176). -/
def maskedTag (s : State) : Block := keepBytes (tagLen s) (xorBlock s.w.t s.w.s0)

/-- TAG_MASK (R176): to TAGOUT for ENCRYPT, to W.U for DECRYPT. -/
def execTagMask (s : State) : Host.Outcome State Fault Refusal :=
  .next (if isEncrypt s then enter { s with regs := { s.regs with tagOut := maskedTag s } } 0xA
    else enter { s with w := { s.w with u := maskedTag s } } 0x9)

end Sys2Proof.Machine
end

