-- ==== Sys2Proof/Machine/Orchestration.lean ====
section
/-! DEFINITION. The micro-operations of the orchestration: IDLE, CHECK, the tag comparator and the two
completions (spec/44_orchestration_compare.md), and the reserved codes (R111). -/

namespace Sys2Proof.Machine

/-- IDLE (R192): the ENGINE has no step; nothing changes (log 10). -/
def execIdle (s : State) : Host.Outcome State Fault Refusal := .next s

/-- The first check that fails, in the order of R201, with the CODE and CAUSE to report (R195). -/
def checkFailure (s : State) : Option (BitVec 2 × BitVec 3) :=
  if s.w.op.toNat ∉ [1, 2] then some (codeInvalidParameter, causeBadCmd)
  else if s.regs.keyLen.toNat ∉ [16, 24, 32] then some (codeInvalidParameter, causeKeyLen)
  else if nonceLen s < 7 ∨ 13 < nonceLen s then some (codeInvalidParameter, causeNLen)
  else if s.regs.tLen.toNat ∉ [4, 6, 8, 10, 12, 14, 16] then some (codeInvalidParameter, causeTLen)
  else if 2 ^ (8 * fmtL (nonceLen s)) ≤ payLen s then some (codeMessageTooLong, causeNone)
  else if s.capOf .aad < aadLen s then some (codeInvalidParameter, causeALenRange)
  else if s.capOf .din < payLen s then some (codeInvalidParameter, causePLenRange)
  else none

/-- The checks pass: `W.L <- 15 − NLEN; W.M <- TLEN`, and the first step of the command (R195). -/
def beginCommand (s : State) : State :=
  { s with w := { s.w with
      l := BitVec.ofNat 4 (fmtL (nonceLen s))
      m := s.regs.tLen.setWidth 5
      phase := if isEncrypt s then 0x2 else 0x6 } }

/-- CHECK (R195). -/
def execCheck (s : State) : Host.Outcome State Fault Refusal :=
  match checkFailure s with
  | some (code, cause) => .next (failCheck s code cause)
  | none => .next (beginCommand s)

/-- `d`, the comparator's accumulation over all of the first `m` bytes, with no early exit (R202). -/
def tagDiff (m : Nat) (u t : Vector Byte 16) : Byte :=
  (List.range m).foldl (fun d j => d ||| (byteAt u j ^^^ byteAt t j)) 0

/-- CT_COMPARE (R202). -/
def execCtCompare (s : State) : Host.Outcome State Fault Refusal :=
  .next (enter { s with w := { s.w with aok := tagDiff (tagLen s) s.w.u s.regs.tagIn = 0 } } 0xA)

/-- FIN (R204): `AUTHOK <- (W.OP = 0x02) ? W.AOK : 0`; ERR stays as it is. -/
def execFin (s : State) : Host.Outcome State Fault Refusal :=
  .next (complete s s.regs.err (s.w.op.toNat = 2 && s.w.aok))

/-- ERRFIN (R203): ERR from W.ECODE and W.ECAUSE, AUTHOK 0. -/
def execErrfin (s : State) : Host.Outcome State Fault Refusal :=
  .next (complete s { code := s.w.ecode, cause := s.w.ecause } false)

/-- PHASE_RSVD (R111, I6): a reserved code has no defined step. -/
def execPhaseRsvd (_low : BitVec 2) (_s : State) : Host.Outcome State Fault Refusal := .fault .reservedPhase

end Sys2Proof.Machine
end

