-- ==== Sys2Proof/Machine/Dispatch.lean ====
section
/-! DEFINITION. The meaning of every instruction: one arm a constructor. -/

namespace Sys2Proof.Machine

def exec (i : Instr) (s : State) : Host.Outcome State Fault Refusal :=
  match i with
  | .cmdNop => Sys2Proof.Machine.execCmdNop s
  | .encrypt => Sys2Proof.Machine.execEncrypt s
  | .decrypt => Sys2Proof.Machine.execDecrypt s
  | .cmdRsvd data => Sys2Proof.Machine.execCmdRsvd data s
  | .statusW data => Sys2Proof.Machine.execStatusW data s
  | .regWr off data => Sys2Proof.Machine.execRegWr off data s
  | .regRd off => Sys2Proof.Machine.execRegRd off s
  | .aadWr off data => Sys2Proof.Machine.execAadWr off data s
  | .aadRd off => Sys2Proof.Machine.execAadRd off s
  | .dinWr off data => Sys2Proof.Machine.execDinWr off data s
  | .dinRd off => Sys2Proof.Machine.execDinRd off s
  | .doutWr off data => Sys2Proof.Machine.execDoutWr off data s
  | .doutRd off => Sys2Proof.Machine.execDoutRd off s
  | .idle => Sys2Proof.Machine.execIdle s
  | .check => Sys2Proof.Machine.execCheck s
  | .macB0 => Sys2Proof.Machine.execMacB0 s
  | .macAad => Sys2Proof.Machine.execMacAad s
  | .macPay => Sys2Proof.Machine.execMacPay s
  | .macFinal => Sys2Proof.Machine.execMacFinal s
  | .ksS0 => Sys2Proof.Machine.execKsS0 s
  | .ksBlk => Sys2Proof.Machine.execKsBlk s
  | .tagMask => Sys2Proof.Machine.execTagMask s
  | .ctCompare => Sys2Proof.Machine.execCtCompare s
  | .fin => Sys2Proof.Machine.execFin s
  | .errfin => Sys2Proof.Machine.execErrfin s
  | .phaseRsvd low => Sys2Proof.Machine.execPhaseRsvd low s

end Sys2Proof.Machine
end

