-- ==== Sys2Proof/Machine/Step.lean ====
section
/-! DEFINITION. One step of the machine: one turn of one agent (R14, R21). -/

namespace Sys2Proof.Machine

/-- One atomic step. The HOST's turn runs its next transaction, if it has one. The ENGINE's turn runs the
micro-operation W.PHASE names while BUSY = 1, and nothing otherwise (R27, R44). -/
def step (s : State) : Host.Outcome State Fault Refusal :=
  match takeTurn s with
  | (.host, s') =>
    match takeTransaction s' with
    | some (i, s'') => exec i s''
    | none => .next s'
  | (.engine, s') => if s'.regs.status.busy then exec (decodePhase s'.w.phase) s' else .next s'
  | (.wait, s') => .next (raiseRequest s')
  | (.reset, s') => .next (takeReset s')

/-- `s` with one instruction placed so that the next step runs it (log 2): a transaction as the HOST's next
one, in the HOST's turn; a micro-operation as W.PHASE of a busy engine, in the ENGINE's turn. -/
def State.withFetchWord (s : State) (nbits w : Nat) : State :=
  if nbits ≤ 8 then
    { s with
      regs := { s.regs with status := { s.regs.status with busy := true } }
      w := { s.w with phase := BitVec.ofNat 4 w }
      env := { s.env with turns := .engine :: s.env.turns } }
  else
    { s with env := { s.env with host := BitVec.ofNat 75 w :: s.env.host, turns := .host :: s.env.turns } }

end Sys2Proof.Machine
end

