-- ==== Sys2Proof/Safety.lean ====
section
/-! DEFINITION. The terms claims are stated in: legal parameters, the invariant of the engine's states, the
functions a whole command computes, weak fairness of a run, and the micro-operations a run takes. -/

namespace Sys2Proof.Machine

/-! ### Parameters and the invariant -/

/-- The parameters a command needs to pass CHECK (R195 to R200, R263). -/
structure Legal (s : State) : Prop where
  keyLen : s.regs.keyLen.toNat ∈ [16, 24, 32]
  nonce : 7 ≤ nonceLen s ∧ nonceLen s ≤ 13
  tag : s.regs.tLen.toNat ∈ [4, 6, 8, 10, 12, 14, 16]
  message : payLen s < 2 ^ (8 * (15 - nonceLen s))
  aad : aadLen s ≤ s.caps.aad.toNat
  data : payLen s ≤ s.caps.data.toNat

/-- The ERR values that occur (R231), as CODE and CAUSE. -/
def errValues : List Err :=
  [⟨0, 0⟩, ⟨2, 0⟩, ⟨1, 1⟩, ⟨1, 2⟩, ⟨1, 3⟩, ⟨1, 4⟩, ⟨1, 5⟩, ⟨1, 6⟩]

/-- Every offset a buffer lists lies below its capacity (R62, R66). -/
def Buffers.within (s : State) : Prop :=
  ∀ b : Buffer, ∀ c ∈ s.buf.get b, c.1 < s.capOf b

/-- Every buffer is in canonical form. -/
def Buffers.canonical (m : Buffers) : Prop :=
  Memory.wf m.aad ∧ Memory.wf m.din ∧ Memory.wf m.dout

/-- The invariant of the states a run can reach. -/
structure Sound (s : State) : Prop where
  /-- The buffers are canonical and hold nothing outside their capacity. -/
  canonical : s.buf.canonical
  within : Buffers.within s
  /-- BUSY = 1 exactly while a micro-operation other than IDLE is current (R27, R246). -/
  busy_iff : s.regs.status.busy = true ↔ s.w.phase ≠ 0
  /-- W.PHASE is never a reserved code (R111). -/
  phase_le : s.w.phase.toNat ≤ 0xB
  /-- Acceptance cleared DONE, AUTHOK and ERR (R28, R29, R31), and they stay so until completion. -/
  running : s.regs.status.busy = true →
    s.regs.status.done = false ∧ s.regs.status.authok = false ∧ s.regs.err = Err.none
  /-- The working registers are clear between commands (R42). -/
  idle_clear : s.regs.status.busy = false → s.w = Work.clear
  /-- Only the values of R231 stand in ERR. -/
  err_value : s.regs.err ∈ errValues
  /-- AUTHOK = 1 only after a successful command (R29). -/
  authok_done : s.regs.status.authok = true → s.regs.status.done = true ∧ s.regs.err = Err.none
  /-- After CHECK, the parameters are legal and W.L and W.M hold L and M (R46). -/
  checked : 2 ≤ s.w.phase.toNat → s.w.phase.toNat ≤ 0xA →
    (s.w.op = 1 ∨ s.w.op = 2) ∧ Legal s ∧ lenWidth s = 15 - nonceLen s ∧ tagLen s = s.regs.tLen.toNat
  /-- CT_COMPARE belongs to DECRYPT (R110). -/
  compare_decrypt : s.w.phase = 9 → s.w.op = 2
  /-- The block index stays in its range (R45). -/
  aad_index : s.w.phase = 3 → s.w.idx.toNat < nA s
  pay_index : s.w.phase = 4 → s.w.idx.toNat < nP s
  ks_index : s.w.phase = 7 → 1 ≤ s.w.idx.toNat ∧ s.w.idx.toNat ≤ nP s
  /-- ERRFIN has a failure to report, one of R231. -/
  reporting : s.w.phase = 0xB → (⟨s.w.ecode, s.w.ecause⟩ : Err) ∈ errValues ∧ s.w.ecode ≠ 0
  /-- A request stands on the port only for the current micro-operation (R22). -/
  request : ∀ r, s.port = some r →
    s.regs.status.busy = true ∧ ∃ x, cipherInput s = some x ∧ r = requestFor s x

/-! ### The register map -/

/-- The offsets of the read/write register bytes of R24's map: KEYLEN, NLEN, TLEN, ALEN, PLEN, NONCE, TAGIN. -/
def readWriteOffset (off : Nat) : Bool :=
  (0x03 ≤ off && off ≤ 0x05) || (0x08 ≤ off && off ≤ 0x17) || (0x40 ≤ off && off ≤ 0x4C) || (0x50 ≤ off && off ≤ 0x5F)

/-- The reserved offsets of space REG (R41), those of 256 and more among them (R94). -/
def reservedOffset (off : Nat) : Bool :=
  (0x06 ≤ off && off ≤ 0x07) || (0x18 ≤ off && off ≤ 0x1F) || (0x4D ≤ off && off ≤ 0x4F) || 0x70 ≤ off

/-- The transactions that read (R61). -/
def isRead : Instr → Bool
  | .regRd _ | .aadRd _ | .dinRd _ | .doutRd _ => true
  | .cmdNop | .encrypt | .decrypt | .cmdRsvd _ | .statusW _ | .regWr _ _ => false
  | .aadWr _ _ | .dinWr _ _ | .doutWr _ _ => false
  | .idle | .check | .macB0 | .macAad | .macPay | .macFinal | .ksS0 | .ksBlk | .tagMask => false
  | .ctCompare | .fin | .errfin | .phaseRsvd _ => false

/-- The writes that a busy engine ignores: every one but a write of STATUS (R68). -/
def isGatedWrite : Instr → Bool
  | .cmdNop | .encrypt | .decrypt | .cmdRsvd _ | .regWr _ _ | .aadWr _ _ | .dinWr _ _ | .doutWr _ _ => true
  | .statusW _ | .regRd _ | .aadRd _ | .dinRd _ | .doutRd _ => false
  | .idle | .check | .macB0 | .macAad | .macPay | .macFinal | .ksS0 | .ksBlk | .tagMask => false
  | .ctCompare | .fin | .errfin | .phaseRsvd _ => false

/-! ### What a command computes -/

/-- `k` zero bytes (R11). -/
def zeros (k : Nat) : List Byte := List.replicate k 0

/-- FMT_FA, the formatted AAD string (R126). -/
def formattedAad (aad : List Byte) : List Byte :=
  if aad.length = 0 then []
  else aadHeader aad.length ++ aad ++ zeros (pad16 ((aadHeader aad.length).length + aad.length))

/-- PP, the padded payload (R129). -/
def paddedPayload (payload : List Byte) : List Byte := payload ++ zeros (pad16 payload.length)

/-- The `r` 16-byte blocks of a string, in order (R150). -/
def blocksOf (r : Nat) (l : List Byte) : List Block :=
  (List.range r).map fun k => blockOf ((l.drop (16 * k)).take 16)

/-- CBCMAC before truncation, `X_r` (R150). -/
def cbcMac (key : List Byte) (b0 : Block) (ys : List Block) : Block :=
  ys.foldl (fun x y => Config.ciph key (xorBlock x y)) (Config.ciph key b0)

/-- The MAC of a message: B0, then the blocks of the formatted AAD, then those of the padded payload
(R150, R156). -/
def messageMac (key nonce aad payload : List Byte) (m l : Nat) : Block :=
  cbcMac key (fmtB0 nonce aad.length payload.length m l)
    (blocksOf (aadBlocks aad.length) (formattedAad aad) ++ blocksOf (payBlocks payload.length) (paddedPayload payload))

/-- Keystream block `Si` (R170). -/
def keyBlock (key nonce : List Byte) (l i : Nat) : Block := Config.ciph key (fmtCtr nonce l i)

/-- Byte `j` of `S_1 ‖ … ‖ S_n` (R190). -/
def keyByte (key nonce : List Byte) (l j : Nat) : Byte := byteAt (keyBlock key nonce l (1 + j / 16)) (j % 16)

/-- `data ⊕ (S_1 ‖ … ‖ S_n)[0..p)` (R172, R190). -/
def applyKeystream (key nonce : List Byte) (l : Nat) (data : List Byte) : List Byte :=
  (List.range data.length).map fun j => data.getD j 0 ^^^ keyByte key nonce l j

/-- `(T ⊕ S_0)[0..M) ‖ zeros(16 − M)` for the raw MAC `x` (R154, R176). -/
def maskTag (key nonce : List Byte) (m l : Nat) (x : Block) : Block :=
  keepBytes m (xorBlock x (keyBlock key nonce l 0))

/-! ### Runs -/

/-- Whose turn the next step is: the planned one, or the free value where none is planned (log 1). -/
def nextTurn (s : State) : Turn := (takeTurn s).1

/-- Weak fairness of the run from `s` (R14; R272: "A model states this as a fairness assumption"). The step allows
every order of turns, so a claim of progress takes this as a hypothesis (log 1). -/
structure WeaklyFair (s : State) : Prop where
  /-- A pending micro-operation is eventually taken: from every busy state of the run, the engine later gets a turn,
  alone or in one that leaves its request waiting for the CIPHER, unless the command is over before. -/
  scheduled : ∀ (k : Nat) (t : State), Sys2Proof.core.run k s = .next t → t.regs.status.busy = true →
    ∃ (j : Nat) (u : State), Sys2Proof.core.run j t = .next u ∧
      (u.regs.status.busy = false ∨ nextTurn u = .engine ∨ nextTurn u = .wait ∧ cipherInput u ≠ none)
  /-- Every CIPH request is eventually answered: whatever stands on the port leaves it later (log 9). -/
  answered : ∀ (k : Nat) (t : State), Sys2Proof.core.run k s = .next t → t.port ≠ none →
    ∃ (j : Nat) (u : State), Sys2Proof.core.run j t = .next u ∧ u.port = none

/-- The micro-operations that `k` steps take, in order, when the ENGINE moves in each of them. -/
def microTrace : Nat → State → List Instr
  | 0, _ => []
  | k + 1, s =>
    decodePhase s.w.phase ::
      match step s with
      | .next t => microTrace k t
      | .fault _ => []
      | .refused _ => []

/-- Whether an instruction calls the cipher (R22). -/
def callsCipher : Instr → Bool
  | .macB0 | .macAad | .macPay | .ksS0 | .ksBlk => true
  | .cmdNop | .encrypt | .decrypt | .cmdRsvd _ | .statusW _ | .regWr _ _ | .regRd _ => false
  | .aadWr _ _ | .aadRd _ | .dinWr _ _ | .dinRd _ | .doutWr _ _ | .doutRd _ => false
  | .idle | .check | .macFinal | .tagMask | .ctCompare | .fin | .errfin | .phaseRsvd _ => false

/-- How many micro-operations the executing command still takes, at most (R271, R272): by W.PHASE, for each
of the two orders of R110. -/
def stepsLeft (s : State) : Nat :=
  if s.regs.status.busy then
    match decodePhase s.w.phase with
    | .check => if isEncrypt s then 6 + nA s + 2 * nP s else 7 + nA s + 2 * nP s
    | .macB0 => if isEncrypt s then 5 + nA s + 2 * nP s else 5 + nA s + nP s
    | .macAad => if isEncrypt s then 4 + (nA s - s.w.idx.toNat) + 2 * nP s else 4 + (nA s - s.w.idx.toNat) + nP s
    | .macPay => if isEncrypt s then 4 + (nP s - s.w.idx.toNat) + nP s else 4 + (nP s - s.w.idx.toNat)
    | .macFinal => if isEncrypt s then 4 + nP s else 4
    | .ksS0 => if isEncrypt s then 3 + nP s else 6 + nA s + 2 * nP s
    | .ksBlk => if isEncrypt s then 3 + (nP s - s.w.idx.toNat) else 6 + nA s + nP s + (nP s - s.w.idx.toNat)
    | .tagMask => if isEncrypt s then 2 else 3
    | .ctCompare => 2
    | .fin => 1
    | .errfin => 1
    | _ => 0
  else 0

end Sys2Proof.Machine
end

