-- ==== Sys2Proof/Certificates/Slice0/Obligations.lean ====
section
/-! DEFINITION. The statements for the provers. Each docstring names the rule of spec/ it states, or says which
choice of the model it rests on. -/

open Sys2Proof Sys2Proof.Machine

/-! ### Encoding -/

/-- Words written out in spec/95_test_vectors.md part 3 (programs P1, P2, P3) and W.PHASE codes of R110
decode to the instructions they stand for. -/
def Obligations.WrittenOutWordsDecode : Prop :=
  decodeHtx 0x4000000000000000310 = .regWr 0x03 0x10 ∧
  decodeHtx 0x4000000000000004616 = .regWr 0x46 0x16 ∧
  decodeHtx 0x5000000000000000707 = .aadWr 0x07 0x07 ∧
  decodeHtx 0x6000000000000000323 = .dinWr 0x03 0x23 ∧
  decodeHtx 0x4000000000000000001 = .encrypt ∧
  decodeHtx 0x4000000000000000002 = .decrypt ∧
  decodeHtx 0x4000000000000000003 = .cmdRsvd 0x03 ∧
  decodeHtx 0x4000000000000000000 = .cmdNop ∧
  decodeHtx 0x4000000000000000108 = .statusW 0x08 ∧
  decodeHtx 0x0000000000000000200 = .regRd 0x02 ∧
  decodeHtx 0x2000000000000000000 = .dinRd 0x00 ∧
  decodeHtx 0x3000000000000000300 = .doutRd 0x03 ∧
  decodePhase 0x1 = .check ∧ decodePhase 0x7 = .ksBlk ∧ decodePhase 0xB = .errfin

/-- Decoding an encoded well-formed instruction gives it back, at both levels, with every operand at every
value (R91, R93, R94, R110, R111). -/
def Obligations.DecodeOfEncode : Prop :=
  ∀ i : Instr, i.wellFormed = true → decode (encode i) = .ok i

/-- Every 75-bit word is a well-formed host transaction (R95: no host transaction is illegal). Encoding it again
gives the same word, but for the DATA of a read, which is ignored. -/
def Obligations.EveryTransactionDecodes : Prop :=
  ∀ w : BitVec 75, (decodeHtx w).wellFormed = true ∧ (decodeHtx w).isHost = true ∧
    (encodeHtx (decodeHtx w)).toNat = (if htxIsWrite w then w.toNat else w.toNat - w.toNat % 256)

/-- A transaction word decodes by its fields in the order of R94: a write of offset 0 of REG by its DATA (R93),
a write of offset 1 as STATUS_W, any other as the plain read or write of its space; a read's DATA is ignored. -/
def Obligations.TransactionDecodesByItsFields : Prop :=
  ∀ (space : Space) (off : BitVec 64) (data : Byte),
    let write := decodeHtx (BitVec.ofNat 75 (htxWord 1 space off.toNat data.toNat))
    let read := decodeHtx (BitVec.ofNat 75 (htxWord 0 space off.toNat data.toNat))
    (space = .reg → off.toNat = 0 → data = 0 → write = .cmdNop) ∧
    (space = .reg → off.toNat = 0 → data = 1 → write = .encrypt) ∧
    (space = .reg → off.toNat = 0 → data = 2 → write = .decrypt) ∧
    (space = .reg → off.toNat = 0 → 3 ≤ data.toNat → write = .cmdRsvd data) ∧
    (space = .reg → off.toNat = 1 → write = .statusW data) ∧
    (space = .reg → 2 ≤ off.toNat → write = .regWr off data) ∧
    (space = .aad → write = .aadWr off data) ∧
    (space = .din → write = .dinWr off data) ∧
    (space = .dout → write = .doutWr off data) ∧
    (space = .reg → read = .regRd off) ∧
    (space = .aad → read = .aadRd off) ∧
    (space = .din → read = .dinRd off) ∧
    (space = .dout → read = .doutRd off)

/-! ### The step -/

/-- In the HOST's turn the step is `exec` of the HOST's next transaction, decoded, at the state with the turn
and the transaction used up; and so it is of the instruction a well-formed host instruction was encoded
from (R61, R95). With no transaction left nothing happens (log 2, the model's choice). -/
def Obligations.StepRunsTheDecodedTransaction : Prop :=
  ∀ (s : State) (ts : List Turn), s.env.turns = .host :: ts →
    (∀ (w : BitVec 75) (hs : List (BitVec 75)), s.env.host = w :: hs →
      step s = exec (decodeHtx w) { s with env := { s.env with turns := ts, host := hs } }) ∧
    (∀ (i : Instr) (hs : List (BitVec 75)), i.wellFormed = true → i.isHost = true → s.env.host = encodeHtx i :: hs →
      step s = exec i { s with env := { s.env with turns := ts, host := hs } }) ∧
    (s.env.host = [] → step s = .next { s with env := { s.env with turns := ts } })

/-- In the ENGINE's turn the step is `exec` of the micro-operation W.PHASE names while BUSY = 1, at the state
with the turn used up (R44). While BUSY = 0 the ENGINE has no step (R27: "it has none"); that its turn then answers a
next state in which only the turn is used up is the model's choice (log 10, DEDUCED). -/
def Obligations.StepRunsTheMicroOperation : Prop :=
  ∀ (s : State) (ts : List Turn), s.env.turns = .engine :: ts →
    (s.regs.status.busy = true → step s = exec (decodePhase s.w.phase) { s with env := { s.env with turns := ts } }) ∧
    (s.regs.status.busy = false → step s = .next { s with env := { s.env with turns := ts } })

/-- Where no turn is planned the step is that of a drawn turn: a free value (log 1, the model's form of R14's
"in any order"). -/
def Obligations.UnplannedTurnIsDrawn : Prop :=
  ∀ s : State, s.env.turns = [] →
    step s = step { s with env := { s.env with turns := [Config.anyTurn s.env.draws], draws := s.env.draws + 1 } }

/-- While the CIPHER keeps the ENGINE waiting (log 9, the model's choice of a turn for it), the request of the current
micro-operation stands on the port and nothing else changes. The request is the key and the block that micro-operation
sends, packed as R72 says: B0 for MAC_B0, X ⊕ FA_BLOCK(k) for MAC_AAD, X ⊕ PP_BLOCK(src, k) for MAC_PAY, A0 for KS_S0
and Ai for KS_BLK. Every other phase, and an engine with BUSY = 0, sends none: the port is as before (R22). -/
def Obligations.WaitingLeavesOnlyTheRequest : Prop :=
  ∀ (s : State) (ts : List Turn), s.env.turns = .wait :: ts →
    let nonce := s.regs.nonce.toList.take s.regs.nLen.toNat
    let src := if s.w.op = 0x01 then Buffer.din else Buffer.dout
    ∃ q, step s = .next { s with port := q, env := { s.env with turns := ts } } ∧
      let sends := fun (x : Block) => ∃ r, q = some r ∧ r.keyLen = s.regs.keyLen ∧
        (∀ j, j < 16 → r.block.extractLsb' (120 - 8 * j) 8 = byteAt x j) ∧
        (∀ j, j < 32 → r.key.extractLsb' (248 - 8 * j) 8 =
          if j < s.regs.keyLen.toNat then byteAt s.regs.key j else 0)
      (s.regs.status.busy = false → q = s.port) ∧
      (s.regs.status.busy = true →
        (s.w.phase = 0x2 →
          sends (fmtB0 nonce s.regs.aLen.toNat s.regs.pLen.toNat s.w.m.toNat s.w.l.toNat)) ∧
        (s.w.phase = 0x3 → sends (xorBlock s.w.x (faBlock s s.w.idx.toNat))) ∧
        (s.w.phase = 0x4 → sends (xorBlock s.w.x (ppBlock s src s.w.idx.toNat))) ∧
        (s.w.phase = 0x6 → sends (fmtCtr nonce s.w.l.toNat 0)) ∧
        (s.w.phase = 0x7 → sends (fmtCtr nonce s.w.l.toNat s.w.idx.toNat)) ∧
        (s.w.phase ≠ 0x2 → s.w.phase ≠ 0x3 → s.w.phase ≠ 0x4 → s.w.phase ≠ 0x6 → s.w.phase ≠ 0x7 → q = s.port))

/-- What the state after reset holds, and what taking reset leaves (R53, R260): zero registers, zero working
registers, W.PHASE = IDLE, no stored buffer byte, no request outstanding. -/
def Obligations.ResetLeavesTheResetValues : Prop :=
  ∀ t : State, (t = State.reset ∨ ∃ (s : State) (ts : List Turn), s.env.turns = .reset :: ts ∧ step s = .next t) →
    t.regs.status.byte = 0x00 ∧ t.regs.err.byte = 0x00 ∧
    t.regs.keyLen = 0 ∧ t.regs.nLen = 0 ∧ t.regs.tLen = 0 ∧ t.regs.aLen = 0 ∧ t.regs.pLen = 0 ∧
    (∀ j, byteAt t.regs.key j = 0) ∧ (∀ j, byteAt t.regs.nonce j = 0) ∧
    (∀ j, byteAt t.regs.tagIn j = 0) ∧ (∀ j, byteAt t.regs.tagOut j = 0) ∧
    t.w.op = 0 ∧ t.w.phase = 0 ∧ t.w.idx = 0 ∧ t.w.l = 0 ∧ t.w.m = 0 ∧
    (∀ j, byteAt t.w.x j = 0 ∧ byteAt t.w.s0 j = 0 ∧ byteAt t.w.t j = 0 ∧ byteAt t.w.u j = 0) ∧
    t.w.aok = false ∧ t.w.ecode = 0 ∧ t.w.ecause = 0 ∧
    (∀ (b : Buffer) (off : Nat), stored t b off = none) ∧ t.port = none

/-- Reset is one step from every state, also during a command (R260, R261). The capacities stay, as do the HOST's
plans, and the buffers' unknown contents are drawn anew (logs 4, 5 and 8, the model's choices). -/
def Obligations.ResetIsOneStepFromEveryState : Prop :=
  ∀ (s : State) (ts : List Turn), s.env.turns = .reset :: ts →
    ∃ t, step s = .next t ∧ t.caps = s.caps ∧
      t.env = { s.env with turns := ts, resets := s.env.resets + 1 } ∧
      (∀ (b : Buffer) (off : Nat), content t b off = Config.initialByte b (s.env.resets + 1) off)

/-! ### Flags and registers -/

/-- STATUS holds BUSY in bit 0, DONE in bit 1, AUTHOK in bit 2, WIGN in bit 3 and reads 0 in bits 7:4 (R26); ERR
holds CODE in bits 1:0, CAUSE in bits 6:4 and reads 0 in bits 3:2 and 7 (R31). -/
def Obligations.StatusAndErrLayout : Prop :=
  (∀ st : Status, st.byte.getLsbD 0 = st.busy ∧ st.byte.getLsbD 1 = st.done ∧ st.byte.getLsbD 2 = st.authok ∧
    st.byte.getLsbD 3 = st.wign ∧ st.byte.extractLsb' 4 4 = 0) ∧
  (∀ e : Err, e.byte.extractLsb' 0 2 = e.code ∧ e.byte.extractLsb' 2 2 = 0 ∧ e.byte.extractLsb' 4 3 = e.cause ∧
    e.byte.getLsbD 7 = false)

/-- ALEN and PLEN are big-endian in the register map (R35, R36, R71): the byte at offset 0x08 + j of ALEN, or 0x10 + j of
PLEN, is byte j of the register, of weight 2^(8(7 − j)), so that the byte at the lowest offset holds bits 63:56. A
write of one of these offsets replaces that byte of that register and nothing else. -/
def Obligations.LengthRegistersAreBigEndian : Prop :=
  (∀ (s : State) (j : Nat), j < 8 →
    regLoad s (0x08 + j) = some (regByte s.regs.aLen j) ∧ regLoad s (0x10 + j) = some (regByte s.regs.pLen j)) ∧
  (∀ (s : State) (j : Nat) (b : Byte), j < 8 →
    regStore s (0x08 + j) b = { s with regs := { s.regs with aLen := setRegByte s.regs.aLen j b } } ∧
    regStore s (0x10 + j) b = { s with regs := { s.regs with pLen := setRegByte s.regs.pLen j b } }) ∧
  ∀ (v : BitVec 64),
    v.toNat = ((List.range 8).map fun j => (regByte v j).toNat * 2 ^ (8 * (7 - j))).sum ∧
    (∀ (j k : Nat) (b : Byte), j < 8 → k < 8 →
      regByte (setRegByte v j b) k = if k = j then b else regByte v k)

/-- REG_WR of an idle engine stores the byte in a read/write register byte, which then reads back, or in KEY,
and is ignored at every other offset; nothing else changes (R24, R67, R41, R94). -/
def Obligations.RegisterWriteStoresOneByte : Prop :=
  ∀ (s : State) (off : BitVec 64) (data : Byte), 2 ≤ off.toNat → s.regs.status.busy = false →
    ∃ r : Regs, exec (.regWr off data) s = .next { s with regs := r } ∧
      r.status = s.regs.status ∧ r.err = s.regs.err ∧ r.tagOut = s.regs.tagOut ∧
      (∀ j, j < 32 → byteAt r.key j = if off.toNat = 0x20 + j then data else byteAt s.regs.key j) ∧
      (∀ o, regLoad { s with regs := r } o =
        if o = off.toNat ∧ readWriteOffset o = true then some data else regLoad s o)

/-- REG_RD returns the byte of R24's register map and changes nothing in the engine: CMD, KEY and the reserved
offsets read 0x00, and TAGOUT while BUSY = 1 reads some byte (R67, R69, R74). -/
def Obligations.RegisterReadReturnsTheMappedByte : Prop :=
  ∀ (s : State) (off : BitVec 64),
    ∃ (v : Byte) (d : Nat),
      exec (.regRd off) s = .next { s with env := { s.env with returned := v :: s.env.returned, draws := d } } ∧
      (¬(s.regs.status.busy = true ∧ 0x60 ≤ off.toNat ∧ off.toNat ≤ 0x6F) → d = s.env.draws) ∧
      (off.toNat = 0x00 → v = 0) ∧ (off.toNat = 0x01 → v = s.regs.status.byte) ∧
      (off.toNat = 0x02 → v = s.regs.err.byte) ∧ (off.toNat = 0x03 → v = s.regs.keyLen) ∧
      (off.toNat = 0x04 → v = s.regs.nLen) ∧ (off.toNat = 0x05 → v = s.regs.tLen) ∧
      (∀ j, j < 8 → off.toNat = 0x08 + j → v = regByte s.regs.aLen j) ∧
      (∀ j, j < 8 → off.toNat = 0x10 + j → v = regByte s.regs.pLen j) ∧
      (∀ j, j < 32 → off.toNat = 0x20 + j → v = 0) ∧
      (∀ j, j < 13 → off.toNat = 0x40 + j → v = byteAt s.regs.nonce j) ∧
      (∀ j, j < 16 → off.toNat = 0x50 + j → v = byteAt s.regs.tagIn j) ∧
      (∀ j, j < 16 → off.toNat = 0x60 + j → s.regs.status.busy = false → v = byteAt s.regs.tagOut j) ∧
      (reservedOffset off.toNat = true → v = 0)

/-- No host read returns anything of KEY: two states that differ in KEY alone give the HOST the same byte for
every read (R37: the key cannot be read back). -/
def Obligations.KeyCannotBeReadBack : Prop :=
  ∀ (s : State) (key : Vector Byte 32) (i : Instr), isRead i = true →
    ∃ e : Surroundings, exec i s = .next { s with env := e } ∧
      exec i { s with regs := { s.regs with key := key } } =
        .next { s with regs := { s.regs with key := key }, env := e }

/-- STATUS_W clears WIGN when bit 3 of the data is 1 and has no other effect, also while BUSY = 1 (R30, R67,
R68). -/
def Obligations.StatusWriteClearsOnlyWign : Prop :=
  ∀ (s : State) (data : Byte),
    exec (.statusW data) s = .next { s with regs := { s.regs with status := { s.regs.status with
      wign := if data.getLsbD 3 then false else s.regs.status.wign } } }

/-- While BUSY = 1 every host write other than one of STATUS is ignored and sets WIGN, with no other effect
(R68). -/
def Obligations.BusyEngineIgnoresWrites : Prop :=
  ∀ (s : State) (i : Instr), isGatedWrite i = true → s.regs.status.busy = true →
    exec i s = .next { s with regs := { s.regs with status := { s.regs.status with wign := true } } }

/-! ### Commands -/

/-- A nonzero command written while BUSY = 0 is accepted in the same step (R192): W.OP the value, PHASE CHECK,
BUSY 1, DONE 0, AUTHOK 0, WIGN unchanged, ERR 0x00, and nothing else. -/
def Obligations.CommandAcceptance : Prop :=
  ∀ (s : State) (i : Instr) (v : Byte), s.regs.status.busy = false →
    (i = .encrypt ∧ v = 0x01 ∨ i = .decrypt ∧ v = 0x02 ∨ i = .cmdRsvd v ∧ 3 ≤ v.toNat) →
    exec i s = .next { s with
      w := { s.w with op := v, phase := 0x1 }
      regs := { s.regs with
        status := { busy := true, done := false, authok := false, wign := s.regs.status.wign }
        err := { code := 0, cause := 0 } } }

/-- CMD_NOP changes nothing while BUSY = 0, and sets WIGN like any other write while BUSY = 1 (R193); nor does a write
to DOUT change anything while BUSY = 0 (R65). -/
def Obligations.NopAndDoutWriteChangeNothing : Prop :=
  ∀ (s : State),
    (s.regs.status.busy = false →
      exec .cmdNop s = .next s ∧ ∀ (off : BitVec 64) (data : Byte), exec (.doutWr off data) s = .next s) ∧
    (s.regs.status.busy = true →
      exec .cmdNop s = .next { s with regs := { s.regs with status := { s.regs.status with wign := true } } })

/-! ### Buffers -/

/-- AAD_WR and DIN_WR of an idle engine store the byte at an offset below the capacity and are ignored at or
beyond it; every other byte of every buffer is as before, and nothing else changes (R63, R64, R66). -/
def Obligations.BufferWriteStoresOneByte : Prop :=
  ∀ (s : State) (off : BitVec 64) (data : Byte) (i : Instr) (b : Buffer), s.regs.status.busy = false →
    (i = .aadWr off data ∧ b = .aad ∨ i = .dinWr off data ∧ b = .din) →
    ∃ m : Buffers, exec i s = .next { s with buf := m } ∧
      ∀ (b' : Buffer) (a : Nat), stored { s with buf := m } b' a =
        if b' = b ∧ a = off.toNat ∧ a < s.capOf b then some data else stored s b' a

/-- AAD_RD, DIN_RD and DOUT_RD return the byte stored at the offset, 0x00 at or beyond the capacity, and some byte where
nothing has been stored since reset (R63 to R66, I3); DOUT_RD returns some byte while BUSY = 1 (R69). They change
nothing in the engine (R74). -/
def Obligations.BufferReadReturnsTheStoredByte : Prop :=
  ∀ (s : State) (off : BitVec 64) (i : Instr) (b : Buffer),
    (i = .aadRd off ∧ b = .aad ∨ i = .dinRd off ∧ b = .din ∨ i = .doutRd off ∧ b = .dout) →
    ∃ (v : Byte) (d : Nat),
      exec i s = .next { s with env := { s.env with returned := v :: s.env.returned, draws := d } } ∧
      (b ≠ .dout ∨ s.regs.status.busy = false →
        (s.capOf b ≤ off.toNat → v = 0 ∧ d = s.env.draws) ∧
        (∀ x, off.toNat < s.capOf b → stored s b off.toNat = some x → v = x ∧ d = s.env.draws))

/-- What an idle engine's HOST writes to an offset of AAD or DIN below the capacity, a read of that offset in the
next transaction returns (R63, R64, R76). -/
def Obligations.BufferReadAfterWrite : Prop :=
  ∀ (s : State) (off : BitVec 64) (data : Byte), s.regs.status.busy = false →
    (off.toNat < s.capOf .aad → ∃ t u, exec (.aadWr off data) s = .next t ∧ exec (.aadRd off) t = .next u ∧
      u.env.returned = data :: s.env.returned) ∧
    (off.toNat < s.capOf .din → ∃ t u, exec (.dinWr off data) s = .next t ∧ exec (.dinRd off) t = .next u ∧
      u.env.returned = data :: s.env.returned)

/-! ### The Block Formatter -/

/-- `be_k(v)` has `k` bytes and is the big-endian encoding of `v`; `ceil(x/16)` is the least integer at or above x/16 and
`pad16(x)` the number of bytes that bring `x` to a multiple of 16 (R12). -/
def Obligations.BigEndianEncoding : Prop :=
  (∀ (k v : Nat), v < 2 ^ (8 * k) →
    (be k v).length = k ∧ packBytes (be k v) = v ∧
    ∀ j, j < k → (be k v).getD j 0 = BitVec.ofNat 8 (v / 2 ^ (8 * (k - 1 - j)))) ∧
  ∀ x, x ≤ 16 * ceil16 x ∧ 16 * ceil16 x < x + 16 ∧ pad16 x < 16 ∧ (x + pad16 x) % 16 = 0

/-- The layout of B0 for legal parameters (R96, R97): the flags byte's fields, the nonce in bytes 1 to N, the
big-endian payload length in bytes N+1 to 15. -/
def Obligations.InitialBlockLayout : Prop :=
  ∀ (nonce : List Byte) (a p m l : Nat), nonce.length + l = 15 → 2 ≤ l → l ≤ 8 →
    m ∈ [4, 6, 8, 10, 12, 14, 16] → p < 2 ^ (8 * l) →
    let b := fmtB0 nonce a p m l
    (byteAt b 0).getLsbD 7 = false ∧ (byteAt b 0).getLsbD 6 = decide (0 < a) ∧
    ((byteAt b 0).extractLsb' 3 3).toNat = (m - 2) / 2 ∧ ((byteAt b 0).extractLsb' 0 3).toNat = l - 1 ∧
    (∀ j, j < nonce.length → byteAt b (1 + j) = nonce.getD j 0) ∧
    packBytes (b.toList.drop (1 + nonce.length)) = p

/-- The layout of the counter block Ai (R99, R100), and the counter never leaves its field nor repeats: every
block number of a message of legal length fits, and different numbers give different blocks (R132). -/
def Obligations.CounterBlockLayout : Prop :=
  ∀ (nonce : List Byte) (l i : Nat), nonce.length + l = 15 → 2 ≤ l → l ≤ 8 →
    (i < 2 ^ (8 * l) →
      byteAt (fmtCtr nonce l i) 0 = BitVec.ofNat 8 (l - 1) ∧
      (∀ j, j < nonce.length → byteAt (fmtCtr nonce l i) (1 + j) = nonce.getD j 0) ∧
      packBytes ((fmtCtr nonce l i).toList.drop (1 + nonce.length)) = i) ∧
    (∀ p, p < 2 ^ (8 * l) → i ≤ payBlocks p → i < 2 ^ (8 * l)) ∧
    (∀ k, i < 2 ^ (8 * l) → k < 2 ^ (8 * l) → fmtCtr nonce l i = fmtCtr nonce l k → i = k)

/-- The AAD length prefix by range (R101), and how a reader of it finds the length again (R102). -/
def Obligations.AadLengthHeader : Prop :=
  ∀ a : Nat, a < 2 ^ 64 →
    (a = 0 → aadHeader a = []) ∧
    (0 < a → a < 65280 → (aadHeader a).length = 2 ∧ packBytes (aadHeader a) = a) ∧
    (65280 ≤ a → a < 2 ^ 32 → (aadHeader a).length = 6 ∧ packBytes ((aadHeader a).take 2) = 0xFFFE ∧
      packBytes ((aadHeader a).drop 2) = a) ∧
    (2 ^ 32 ≤ a → (aadHeader a).length = 10 ∧ packBytes ((aadHeader a).take 2) = 0xFFFF ∧
      packBytes ((aadHeader a).drop 2) = a)

/-- The blocks FA_BLOCK(0) to FA_BLOCK(nA − 1), computed from the AAD buffer, are the formatted AAD: the prefix,
the AAD bytes and zeros to the next 16-byte boundary (R126, R127, R128). -/
def Obligations.FormattedAadBlocks : Prop :=
  ∀ s : State,
    (List.range (nA s)).flatMap (fun k => (faBlock s k).toList) = formattedAad (memRead s .aad 0 (aadLen s)) ∧
    16 * nA s = (formattedAad (memRead s .aad 0 (aadLen s))).length ∧ (0 < aadLen s → 0 < nA s)

/-- The blocks PP_BLOCK(space, 0) to PP_BLOCK(space, n − 1) are the payload and zeros to the next 16-byte boundary
(R129, R130). -/
def Obligations.PaddedPayloadBlocks : Prop :=
  ∀ (s : State) (b : Buffer),
    (List.range (nP s)).flatMap (fun k => (ppBlock s b k).toList) = paddedPayload (memRead s b 0 (payLen s)) ∧
    16 * nP s = (paddedPayload (memRead s b 0 (payLen s))).length

/-! ### Micro-operations -/

/-- IDLE answers the same state. That is the model's choice (log 10, DEDUCED): R192 says the ENGINE has no step in IDLE,
and the step runs IDLE only in the unreachable states with BUSY = 1 and W.PHASE = 0. -/
def Obligations.IdleChangesNothing : Prop := ∀ s : State, exec .idle s = .next s

/-- CHECK of legal parameters begins the command (R195): W.L = 15 − NLEN, W.M = TLEN, and MAC_B0 for ENCRYPT or
KS_S0 for DECRYPT. Nothing else changes. -/
def Obligations.CheckPassesLegalParameters : Prop :=
  ∀ s : State, Legal s → (s.w.op = 0x01 ∨ s.w.op = 0x02) →
    ∃ w : Work, exec .check s = .next { s with w := w } ∧
      w.l.toNat = 15 - s.regs.nLen.toNat ∧ w.m.toNat = s.regs.tLen.toNat ∧
      w.phase = (if s.w.op = 0x01 then 0x2 else 0x6) ∧
      w = { s.w with l := w.l, m := w.m, phase := w.phase }

/-- CHECK reports the first failing check in the order of R201, as the CODE and CAUSE of R195, and goes to
ERRFIN; nothing else changes. -/
def Obligations.CheckReportsTheFirstFailure : Prop :=
  ∀ s : State,
    let fails := fun (code : BitVec 2) (cause : BitVec 3) =>
      exec .check s = .next { s with w := { s.w with ecode := code, ecause := cause, phase := 0xB } }
    let op := s.w.op = 0x01 ∨ s.w.op = 0x02
    let keyLen := s.regs.keyLen.toNat = 16 ∨ s.regs.keyLen.toNat = 24 ∨ s.regs.keyLen.toNat = 32
    let nLen := 7 ≤ s.regs.nLen.toNat ∧ s.regs.nLen.toNat ≤ 13
    let tLen := 4 ≤ s.regs.tLen.toNat ∧ s.regs.tLen.toNat ≤ 16 ∧ s.regs.tLen.toNat % 2 = 0
    let pLen := s.regs.pLen.toNat < 2 ^ (8 * (15 - s.regs.nLen.toNat))
    let aFits := s.regs.aLen.toNat ≤ s.caps.aad.toNat
    let pFits := s.regs.pLen.toNat ≤ s.caps.data.toNat
    (¬op → fails 1 1) ∧
    (op → ¬keyLen → fails 1 2) ∧
    (op → keyLen → ¬nLen → fails 1 3) ∧
    (op → keyLen → nLen → ¬tLen → fails 1 4) ∧
    (op → keyLen → nLen → tLen → ¬pLen → fails 2 0) ∧
    (op → keyLen → nLen → tLen → pLen → ¬aFits → fails 1 5) ∧
    (op → keyLen → nLen → tLen → pLen → aFits → ¬pFits → fails 1 6)

/-- MAC_B0 (R151): X becomes CIPH(K, B0), and the next micro-operation is MAC_AAD, MAC_PAY or MAC_FINAL. -/
def Obligations.MacOfTheInitialBlock : Prop :=
  ∀ s : State,
    let x := Config.ciph (s.regs.key.toList.take s.regs.keyLen.toNat)
      (fmtB0 (s.regs.nonce.toList.take s.regs.nLen.toNat) s.regs.aLen.toNat s.regs.pLen.toNat s.w.m.toNat s.w.l.toNat)
    exec .macB0 s = .next { s with
      port := none
      w := if 0 < nA s then { s.w with x := x, idx := 0, phase := 0x3 }
      else if 0 < nP s then { s.w with x := x, idx := 0, phase := 0x4 }
      else { s.w with x := x, phase := 0x5 } }

/-- MAC_AAD (R152): X becomes CIPH(K, X ⊕ FA_BLOCK(k)), and the block index advances or the next phase begins. -/
def Obligations.MacOfAnAadBlock : Prop :=
  ∀ s : State,
    let x := Config.ciph (s.regs.key.toList.take s.regs.keyLen.toNat) (xorBlock s.w.x (faBlock s s.w.idx.toNat))
    exec .macAad s = .next { s with
      port := none
      w := if s.w.idx.toNat + 1 < nA s then { s.w with x := x, idx := s.w.idx + 1, phase := 0x3 }
      else if 0 < nP s then { s.w with x := x, idx := 0, phase := 0x4 }
      else { s.w with x := x, phase := 0x5 } }

/-- MAC_PAY (R153): X becomes CIPH(K, X ⊕ PP_BLOCK(src, k)) with the plaintext from DIN for ENCRYPT and from DOUT
for DECRYPT. -/
def Obligations.MacOfAPayloadBlock : Prop :=
  ∀ s : State,
    let src := if s.w.op = 0x01 then Buffer.din else Buffer.dout
    let x := Config.ciph (s.regs.key.toList.take s.regs.keyLen.toNat) (xorBlock s.w.x (ppBlock s src s.w.idx.toNat))
    exec .macPay s = .next { s with
      port := none
      w := if s.w.idx.toNat + 1 < nP s then { s.w with x := x, idx := s.w.idx + 1, phase := 0x4 }
      else { s.w with x := x, phase := 0x5 } }

/-- MAC_FINAL (R154): T is the first M bytes of X and zeros; then KS_S0 for ENCRYPT, TAG_MASK for DECRYPT. -/
def Obligations.MacIsTruncated : Prop :=
  ∀ s : State, ∃ t : Block,
    exec .macFinal s = .next { s with w := { s.w with t := t, phase := if s.w.op = 0x01 then 0x6 else 0x8 } } ∧
      ∀ j, j < 16 → byteAt t j = if j < s.w.m.toNat then byteAt s.w.x j else 0

/-- KS_S0 (R171): S0 becomes CIPH(K, A0), and the next micro-operation is KS_BLK with i = 1, or TAG_MASK for
ENCRYPT and MAC_B0 for DECRYPT. -/
def Obligations.TagMaskingKeystreamBlock : Prop :=
  ∀ s : State,
    let s0 := Config.ciph (s.regs.key.toList.take s.regs.keyLen.toNat)
      (fmtCtr (s.regs.nonce.toList.take s.regs.nLen.toNat) s.w.l.toNat 0)
    exec .ksS0 s = .next { s with
      port := none
      w := if 0 < nP s then { s.w with s0 := s0, idx := 1, phase := 0x7 }
      else { s.w with s0 := s0, phase := if s.w.op = 0x01 then 0x8 else 0x2 } }

/-- KS_BLK (R172): the c = min(16, p − 16(i − 1)) bytes of DIN at 16(i − 1), masked with Si, are stored in DOUT at the
same offsets; every other byte of every buffer is as before. -/
def Obligations.KeystreamMasksOneBlock : Prop :=
  ∀ s : State,
    let i := s.w.idx.toNat
    let base := 16 * (i - 1)
    let c := min 16 (s.regs.pLen.toNat - base)
    let si := Config.ciph (s.regs.key.toList.take s.regs.keyLen.toNat)
      (fmtCtr (s.regs.nonce.toList.take s.regs.nLen.toNat) s.w.l.toNat i)
    ∃ m : Memory,
      exec .ksBlk s = .next { s with
        port := none
        buf := { s.buf with dout := m }
        w := if i < nP s then { s.w with idx := s.w.idx + 1, phase := 0x7 }
        else { s.w with phase := if s.w.op = 0x01 then 0x8 else 0x2 } } ∧
      ∀ a, Memory.read m a =
        if base ≤ a ∧ a < base + c then some (content s .din a ^^^ byteAt si (a - base)) else stored s .dout a

/-- TAG_MASK (R176): U = T[0..M) ⊕ S0[0..M) and zeros, to TAGOUT and FIN for ENCRYPT, to W.U and CT_COMPARE for
DECRYPT, which leaves TAGOUT. -/
def Obligations.TagMasking : Prop :=
  ∀ s : State, ∃ u : Block,
    (∀ j, j < 16 → byteAt u j = if j < s.w.m.toNat then byteAt s.w.t j ^^^ byteAt s.w.s0 j else 0) ∧
    (s.w.op = 0x01 →
      exec .tagMask s = .next { s with regs := { s.regs with tagOut := u }, w := { s.w with phase := 0xA } }) ∧
    (s.w.op ≠ 0x01 → exec .tagMask s = .next { s with w := { s.w with u := u, phase := 0x9 } })

/-- CT_COMPARE (R202): AOK is 1 exactly when the first M bytes of W.U and TAGIN agree; TAGIN bytes at and beyond M
play no part. -/
def Obligations.ComparatorVerdict : Prop :=
  ∀ s : State, ∃ aok : Bool,
    exec .ctCompare s = .next { s with w := { s.w with aok := aok, phase := 0xA } } ∧
      (aok = true ↔ ∀ j, j < s.w.m.toNat → byteAt s.w.u j = byteAt s.regs.tagIn j)

/-- FIN (R204): AUTHOK is the verdict for DECRYPT and 0 otherwise, BUSY 0 and DONE 1 in one step, ERR stays, every
working register is cleared, and nothing else changes. -/
def Obligations.FinCompletesTheCommand : Prop :=
  ∀ s : State,
    exec .fin s = .next { s with
      regs := { s.regs with
        status := {
          busy := false
          done := true
          authok := if s.w.op = 0x02 then s.w.aok else false
          wign := s.regs.status.wign } }
      w := Work.clear }

/-- ERRFIN (R203): ERR is W.ECODE and W.ECAUSE, AUTHOK 0, BUSY 0 and DONE 1 in one step, every working register is
cleared, and nothing else changes: no byte of DOUT, TAGOUT or any input. -/
def Obligations.ErrfinReportsTheFailure : Prop :=
  ∀ s : State,
    exec .errfin s = .next { s with
      regs := { s.regs with
        status := { busy := false, done := true, authok := false, wign := s.regs.status.wign }
        err := { code := s.w.ecode, cause := s.w.ecause } }
      w := Work.clear }

/-- A reserved W.PHASE code has no defined step: the machine is stuck (R111, I6). -/
def Obligations.ReservedPhaseIsStuck : Prop :=
  ∀ (s : State) (c : BitVec 4), 0xC ≤ c.toNat → exec (decodePhase c) s = .fault .reservedPhase

/-! ### Whole-machine rules -/

/-- Every step keeps the invariant. -/
def Obligations.StepKeepsTheInvariant : Prop := ∀ s t : State, Sound s → step s = .next t → Sound t

/-- The state after reset has the invariant, whatever turns and transactions are planned. -/
def Obligations.ResetHasTheInvariant : Prop :=
  ∀ (host : List (BitVec 75)) (turns : List Turn),
    Sound { State.reset with env := { State.reset.env with host := host, turns := turns } }

/-- Every step keeps the buffers in canonical form, from every state. -/
def Obligations.StepKeepsBuffersCanonical : Prop :=
  ∀ s t : State, s.buf.canonical → step s = .next t → t.buf.canonical

/-- From a state with the invariant the machine never stops: host transactions produce no error and no
micro-operation after CHECK can fail (R232), and no reserved code is met (R111). -/
def Obligations.SoundStateNeverStops : Prop := ∀ s : State, Sound s → ∃ t, step s = .next t

/-- Only FIN, ERRFIN and reset clear BUSY (R27), and DONE is set in that step unless it is a reset (R28). -/
def Obligations.OnlyCompletionClearsBusy : Prop :=
  ∀ (s t : State) (turn : Turn) (ts : List Turn), s.env.turns = turn :: ts → step s = .next t →
    s.regs.status.busy = true → t.regs.status.busy = false →
    turn = .reset ∨
      (turn = .engine ∧ (s.w.phase = 0xA ∨ s.w.phase = 0xB) ∧ t.regs.status.done = true)

/-- AUTHOK becomes 1 only in FIN of a DECRYPT whose comparator found the tags equal, in the step that sets DONE
(R29). -/
def Obligations.AuthokOnlyFromFin : Prop :=
  ∀ (s t : State) (turn : Turn) (ts : List Turn), s.env.turns = turn :: ts → step s = .next t →
    s.regs.status.authok = false → t.regs.status.authok = true →
    turn = .engine ∧ s.w.phase = 0xA ∧ s.w.op = 0x02 ∧ s.w.aok = true ∧ t.regs.status.done = true

/-- The inputs of a command cannot change while it runs (R68, R80): no step but reset changes a parameter register,
KEY, NONCE, TAGIN, AAD or DIN of a busy engine. A turn of the HOST or a wait for the CIPHER leaves everything of a busy
engine but WIGN and the port as it was, so that it does not matter where between the micro-operations it falls. -/
def Obligations.InputsFrozenWhileBusy : Prop :=
  ∀ (s t : State) (turn : Turn) (ts : List Turn), s.env.turns = turn :: ts → turn ≠ .reset → step s = .next t →
    s.regs.status.busy = true →
    (t.regs.keyLen = s.regs.keyLen ∧ t.regs.nLen = s.regs.nLen ∧ t.regs.tLen = s.regs.tLen ∧
      t.regs.aLen = s.regs.aLen ∧ t.regs.pLen = s.regs.pLen ∧ t.regs.key = s.regs.key ∧
      t.regs.nonce = s.regs.nonce ∧ t.regs.tagIn = s.regs.tagIn ∧ t.buf.aad = s.buf.aad ∧ t.buf.din = s.buf.din) ∧
    (turn ≠ .engine → ∃ (wign : Bool) (port : Option CipherRequest) (env : Surroundings),
      t = { s with
        regs := { s.regs with status := { s.regs.status with wign := wign } }
        port := port
        env := env } ∧ env.resets = s.env.resets)

/-- TAGOUT changes only in TAG_MASK of an ENCRYPT (R40), and DOUT only in KS_BLK (R65), reset aside. -/
def Obligations.OutputsWrittenOnlyByTheirStep : Prop :=
  ∀ (s t : State) (turn : Turn) (ts : List Turn), s.env.turns = turn :: ts → turn ≠ .reset → step s = .next t →
    (t.regs.tagOut ≠ s.regs.tagOut →
      turn = .engine ∧ s.regs.status.busy = true ∧ s.w.phase = 0x8 ∧ s.w.op = 0x01) ∧
    (t.buf.dout ≠ s.buf.dout → turn = .engine ∧ s.regs.status.busy = true ∧ s.w.phase = 0x7)

/-- The sequence of micro-operations depends only on W.OP, the lengths and the capacities (R209): states that agree
on these and on the sequencer agree again after any micro-operation, whatever their keys, nonces, tags and data. -/
def Obligations.SequenceIsDataIndependent : Prop :=
  ∀ (s t : State) (c : BitVec 4) (s' : State),
    s.w.op = t.w.op → s.w.phase = t.w.phase → s.w.idx = t.w.idx → s.regs.keyLen = t.regs.keyLen →
    s.regs.nLen = t.regs.nLen → s.regs.tLen = t.regs.tLen → s.regs.aLen = t.regs.aLen → s.regs.pLen = t.regs.pLen →
    s.caps = t.caps → s.regs.status.busy = t.regs.status.busy →
    exec (decodePhase c) s = .next s' →
    ∃ t', exec (decodePhase c) t = .next t' ∧
      s'.w.op = t'.w.op ∧ s'.w.phase = t'.w.phase ∧ s'.w.idx = t'.w.idx ∧ s'.regs.keyLen = t'.regs.keyLen ∧
      s'.regs.nLen = t'.regs.nLen ∧ s'.regs.tLen = t'.regs.tLen ∧ s'.regs.aLen = t'.regs.aLen ∧
      s'.regs.pLen = t'.regs.pLen ∧ s'.caps = t'.caps ∧ s'.regs.status.busy = t'.regs.status.busy

/-- Every turn of the ENGINE brings an accepted command nearer its end, and no turn of the HOST or wait for the
CIPHER takes it further away (R272): the count of steps left falls by one in each micro-operation, or to 1 when
CHECK rejects the command, and is 0 exactly when BUSY = 0. So every run that is weakly fair (R14, stated as the
assumption `WeaklyFair`, log 1) takes an accepted command to the step FIN or ERRFIN, which completes it, unless a reset
comes first. -/
def Obligations.EngineTurnsReachCompletion : Prop :=
  ∀ s : State, Sound s →
    (stepsLeft s = 0 ↔ s.regs.status.busy = false) ∧
    (∀ (t : State) (turn : Turn) (ts : List Turn), s.env.turns = turn :: ts → step s = .next t →
      s.regs.status.busy = true →
      (turn = .engine → stepsLeft t + 1 = stepsLeft s ∨ s.w.phase = 0x1 ∧ stepsLeft t = 1) ∧
      (turn = .host ∨ turn = .wait → stepsLeft t = stepsLeft s)) ∧
    (s.regs.status.busy = true → WeaklyFair s →
      ∃ (k : Nat) (t u : State), Sys2Proof.core.run k s = .next t ∧ t.regs.status.busy = true ∧ step t = .next u ∧
        (nextTurn t = .reset ∨
          nextTurn t = .engine ∧ (t.w.phase = 0xA ∨ t.w.phase = 0xB) ∧ u.regs.status.busy = false ∧
            u.regs.status.done = true))

/-! ### Whole commands

The statements about whole commands take the schedule in which the ENGINE moves in every step after the command is
issued. Turns of the HOST and waits for the CIPHER in between change none of the results: see InputsFrozenWhileBusy. -/

/-- A rejected command takes two micro-operations and changes STATUS and ERR alone (R236): no result, no input and
no buffer byte. -/
def Obligations.RejectedCommandLeavesNoResult : Prop :=
  ∀ (s : State) (i : Instr) (v : Byte) (code : BitVec 2) (cause : BitVec 3) (hs : List (BitVec 75)) (ts : List Turn),
    Sound s → s.regs.status.busy = false → s.env.host = encodeHtx i :: hs →
    s.env.turns = .host :: .engine :: .engine :: ts →
    (i = .encrypt ∧ v = 0x01 ∨ i = .decrypt ∧ v = 0x02 ∨ i = .cmdRsvd v ∧ 3 ≤ v.toNat) →
    checkFailure { s with w := { s.w with op := v } } = some (code, cause) →
    Sys2Proof.core.run 3 s = .next { s with
      regs := { s.regs with
        status := { busy := false, done := true, authok := false, wign := s.regs.status.wign }
        err := { code := code, cause := cause } }
      env := { s.env with host := hs, turns := ts } }

/-- An ENCRYPT or DECRYPT issued immediately after reset fails with ERR = 0x21 (R262). -/
def Obligations.CommandAfterResetFails : Prop :=
  ∀ i : Instr, i = .encrypt ∨ i = .decrypt →
    ∃ t : State, Sys2Proof.core.run 3 { State.reset with env := { State.reset.env with
        host := [encodeHtx i], turns := [.host, .engine, .engine] } } = .next t ∧
      t.regs.err.byte = 0x21 ∧ t.regs.status.byte = 0x02

/-- The micro-operations of an ENCRYPT that passes CHECK, in order (R190), and how many of them call the cipher:
2 + nA + 2n (R271). -/
def Obligations.EncryptSequence : Prop :=
  ∀ (s : State) (ts : List Turn), Sound s → s.w.phase = 0x1 → s.w.op = 0x01 → Legal s →
    s.env.turns = List.replicate (6 + nA s + 2 * nP s) .engine ++ ts →
    microTrace (6 + nA s + 2 * nP s) s =
      [.check, .macB0] ++ List.replicate (nA s) .macAad ++ List.replicate (nP s) .macPay ++
        [.macFinal, .ksS0] ++ List.replicate (nP s) .ksBlk ++ [.tagMask, .fin] ∧
    (microTrace (6 + nA s + 2 * nP s) s).countP callsCipher = 2 + nA s + 2 * nP s

/-- The micro-operations of a DECRYPT that passes CHECK, in order (R191), and how many of them call the cipher:
2 + nA + 2n (R271). -/
def Obligations.DecryptSequence : Prop :=
  ∀ (s : State) (ts : List Turn), Sound s → s.w.phase = 0x1 → s.w.op = 0x02 → Legal s →
    s.env.turns = List.replicate (7 + nA s + 2 * nP s) .engine ++ ts →
    microTrace (7 + nA s + 2 * nP s) s =
      [.check, .ksS0] ++ List.replicate (nP s) .ksBlk ++ [.macB0] ++ List.replicate (nA s) .macAad ++
        List.replicate (nP s) .macPay ++ [.macFinal, .tagMask, .ctCompare, .fin] ∧
    (microTrace (7 + nA s + 2 * nP s) s).countP callsCipher = 2 + nA s + 2 * nP s

/-- The result of an ENCRYPT of legal parameters (R190): DOUT[0..p) is DIN[0..p) masked with the keystream, TAGOUT is the
masked tag and zeros, STATUS is DONE, ERR is 0x00, and nothing else changes. -/
def Obligations.EncryptComputesCcm : Prop :=
  ∀ (s : State) (hs : List (BitVec 75)) (ts : List Turn), Sound s → s.regs.status.busy = false → Legal s →
    s.env.host = encodeHtx .encrypt :: hs →
    s.env.turns = .host :: (List.replicate (6 + nA s + 2 * nP s) .engine ++ ts) →
    let l := 15 - nonceLen s
    let m := s.regs.tLen.toNat
    let aad := memRead s .aad 0 (aadLen s)
    let plain := memRead s .din 0 (payLen s)
    let output := applyKeystream (keyBytes s) (nonceBytes s) l plain
    ∃ d : Memory,
      Sys2Proof.core.run (7 + nA s + 2 * nP s) s = .next { s with
        regs := { s.regs with
          status := { busy := false, done := true, authok := false, wign := s.regs.status.wign }
          err := { code := 0, cause := 0 }
          tagOut := maskTag (keyBytes s) (nonceBytes s) m l (messageMac (keyBytes s) (nonceBytes s) aad plain m l) }
        buf := { s.buf with dout := d }
        env := { s.env with host := hs, turns := ts } } ∧
      ∀ a, Memory.read d a = if a < payLen s then some (output.getD a 0) else stored s .dout a

/-- The result of a DECRYPT of legal parameters (R191): DOUT[0..p) is the recovered plaintext whatever the verdict
(R205), AUTHOK is 1 exactly when the tag recomputed over it agrees with TAGIN in its first M bytes (R206: a mismatch
is no error), TAGOUT is unchanged. -/
def Obligations.DecryptComputesCcm : Prop :=
  ∀ (s : State) (hs : List (BitVec 75)) (ts : List Turn), Sound s → s.regs.status.busy = false → Legal s →
    s.env.host = encodeHtx .decrypt :: hs →
    s.env.turns = .host :: (List.replicate (7 + nA s + 2 * nP s) .engine ++ ts) →
    let l := 15 - nonceLen s
    let m := s.regs.tLen.toNat
    let aad := memRead s .aad 0 (aadLen s)
    let output := applyKeystream (keyBytes s) (nonceBytes s) l (memRead s .din 0 (payLen s))
    let u := maskTag (keyBytes s) (nonceBytes s) m l (messageMac (keyBytes s) (nonceBytes s) aad output m l)
    ∃ (d : Memory) (authok : Bool),
      Sys2Proof.core.run (8 + nA s + 2 * nP s) s = .next { s with
        regs := { s.regs with
          status := { busy := false, done := true, authok := authok, wign := s.regs.status.wign }
          err := { code := 0, cause := 0 } }
        buf := { s.buf with dout := d }
        env := { s.env with host := hs, turns := ts } } ∧
      (authok = true ↔ ∀ j, j < m → byteAt u j = byteAt s.regs.tagIn j) ∧
      ∀ a, Memory.read d a = if a < payLen s then some (output.getD a 0) else stored s .dout a

/-- Round trip (R211): a DECRYPT of what an ENCRYPT left, with the same key, nonce, lengths and AAD, ends with the
original plaintext in DOUT and AUTHOK = 1. -/
def Obligations.DecryptOfEncryptAuthenticates : Prop :=
  ∀ (s t s₂ : State) (hs hs₂ : List (BitVec 75)) (ts ts₂ : List Turn),
    Sound s → s.regs.status.busy = false → Legal s → s.env.host = encodeHtx .encrypt :: hs →
    s.env.turns = .host :: (List.replicate (6 + nA s + 2 * nP s) .engine ++ ts) →
    Sys2Proof.core.run (7 + nA s + 2 * nP s) s = .next t →
    Sound s₂ → s₂.regs.status.busy = false → s₂.caps = s.caps →
    s₂.regs.keyLen = s.regs.keyLen → s₂.regs.key = s.regs.key → s₂.regs.nLen = s.regs.nLen →
    s₂.regs.nonce = s.regs.nonce → s₂.regs.tLen = s.regs.tLen → s₂.regs.aLen = s.regs.aLen →
    s₂.regs.pLen = s.regs.pLen →
    (∀ a, a < aadLen s → content s₂ .aad a = content s .aad a) →
    (∀ a, a < payLen s → content s₂ .din a = content t .dout a) →
    (∀ j, j < s.regs.tLen.toNat → byteAt s₂.regs.tagIn j = byteAt t.regs.tagOut j) →
    s₂.env.host = encodeHtx .decrypt :: hs₂ →
    s₂.env.turns = .host :: (List.replicate (7 + nA s + 2 * nP s) .engine ++ ts₂) →
    ∃ t₂, Sys2Proof.core.run (8 + nA s + 2 * nP s) s₂ = .next t₂ ∧
      t₂.regs.status.authok = true ∧ t₂.regs.status.done = true ∧ t₂.regs.err.byte = 0x00 ∧
      ∀ a, a < payLen s → stored t₂ .dout a = some (content s .din a)

/-- Determinism (R208): commands whose inputs agree give the same results, whatever else their states hold: the key
bytes beyond KEYLEN, the nonce bytes beyond N, the bytes beyond the lengths, earlier results. -/
def Obligations.ResultsDependOnlyOnTheInputs : Prop :=
  ∀ (s s₂ t t₂ : State) (i : Instr) (k : Nat) (hs hs₂ : List (BitVec 75)) (ts ts₂ : List Turn),
    (i = .encrypt ∧ k = 6 + nA s + 2 * nP s ∨ i = .decrypt ∧ k = 7 + nA s + 2 * nP s) →
    Sound s → Sound s₂ → s.regs.status.busy = false → s₂.regs.status.busy = false → Legal s →
    s.env.host = encodeHtx i :: hs → s₂.env.host = encodeHtx i :: hs₂ →
    s.env.turns = .host :: (List.replicate k .engine ++ ts) →
    s₂.env.turns = .host :: (List.replicate k .engine ++ ts₂) →
    s₂.caps = s.caps → s₂.regs.keyLen = s.regs.keyLen → s₂.regs.nLen = s.regs.nLen →
    s₂.regs.tLen = s.regs.tLen → s₂.regs.aLen = s.regs.aLen → s₂.regs.pLen = s.regs.pLen →
    keyBytes s₂ = keyBytes s → nonceBytes s₂ = nonceBytes s →
    (∀ a, a < aadLen s → content s₂ .aad a = content s .aad a) →
    (∀ a, a < payLen s → content s₂ .din a = content s .din a) →
    (i = .decrypt → ∀ j, j < s.regs.tLen.toNat → byteAt s₂.regs.tagIn j = byteAt s.regs.tagIn j) →
    Sys2Proof.core.run (k + 1) s = .next t → Sys2Proof.core.run (k + 1) s₂ = .next t₂ →
    (∀ a, a < payLen s → stored t₂ .dout a = stored t .dout a) ∧
    (i = .encrypt → t₂.regs.tagOut = t.regs.tagOut) ∧
    t₂.regs.status.authok = t.regs.status.authok ∧ t₂.regs.err = t.regs.err
end

