-- ==== Sys2Proof/Laws/Bytes.lean ====
section
/-! SUPPORT. The small lemmas of byte strings, blocks and lengths. -/

namespace Sys2Proof.Machine

theorem byteAt_of_lt {n : Nat} (v : Vector Byte n) {j : Nat} (h : j < n) : byteAt v j = v[j] := dif_pos h

theorem byteAt_of_le {n : Nat} (v : Vector Byte n) {j : Nat} (h : n ≤ j) : byteAt v j = 0 := dif_neg (by omega)

@[simp] theorem byteAt_replicate_zero (n j : Nat) : byteAt (Vector.replicate n 0#8) j = 0#8 := by
  unfold byteAt
  split <;> simp

@[simp] theorem byteAt_ofFn {n : Nat} (f : Fin n → Byte) (j : Nat) :
    byteAt (Vector.ofFn f) j = if h : j < n then f ⟨j, h⟩ else 0 := by
  unfold byteAt
  split <;> simp

/-- A byte register is its bytes. -/
theorem vector_ext_byteAt {n : Nat} {a b : Vector Byte n} (h : ∀ j, j < n → byteAt a j = byteAt b j) : a = b := by
  refine Vector.ext fun j hj => ?_
  simpa [byteAt_of_lt, hj] using h j hj

theorem byteAt_xorBlock (a b : Block) (j : Nat) : byteAt (xorBlock a b) j = byteAt a j ^^^ byteAt b j := by
  by_cases h : j < 16
  · simp [xorBlock, byteAt_of_lt, h]
  · simp [byteAt_of_le, Nat.le_of_not_lt h]

theorem byteAt_keepBytes (m : Nat) (b : Block) (j : Nat) :
    byteAt (keepBytes m b) j = if j < m then byteAt b j else 0 := by
  by_cases h : j < 16
  · simp [keepBytes, byteAt_of_lt, h]
  · simp [byteAt_of_le, Nat.le_of_not_lt h]

theorem byteAt_blockOf (l : List Byte) {j : Nat} (h : j < 16) : byteAt (blockOf l) j = l.getD j 0 := by
  simp [blockOf, h]

theorem byteAt_eq_getD {n : Nat} (v : Vector Byte n) (j : Nat) : byteAt v j = v.toList.getD j 0 := by
  by_cases h : j < n
  · simp [byteAt_of_lt, h, List.getD_eq_getElem?_getD]
  · simp [byteAt_of_le, h, List.getD_eq_getElem?_getD, Nat.le_of_not_lt h]

/-- A 16-byte string is the bytes of its block. -/
theorem blockOf_toList {l : List Byte} (h : l.length = 16) : (blockOf l).toList = l := by
  apply List.ext_getElem
  · simp [h]
  · intro i h₁ h₂
    simp [blockOf, List.getD_eq_getElem?_getD, h₂]

theorem blockOf_of_toList (b : Block) : blockOf b.toList = b :=
  vector_ext_byteAt fun j hj => by rw [byteAt_blockOf _ hj, byteAt_eq_getD]

@[simp] theorem be_length (k v : Nat) : (be k v).length = k := by simp [be]

theorem be_getD (k v : Nat) {j : Nat} (h : j < k) :
    (be k v).getD j 0 = BitVec.ofNat 8 (v >>> (8 * (k - 1 - j))) := by
  simp [be, List.getD_eq_getElem?_getD, h]

/-- Padding reaches the next multiple of 16 and no further. -/
theorem sixteen_mul_ceil16 (x : Nat) : 16 * ceil16 x = x + pad16 x := by
  unfold ceil16 pad16
  omega

theorem pad16_lt (x : Nat) : pad16 x < 16 := by
  unfold pad16
  omega

@[simp] theorem firstBytes_length (c : Nat) (b : Block) : (firstBytes c b).length = c := by simp [firstBytes]

theorem firstBytes_getD (b : Block) {c j : Nat} (h : j < c) : (firstBytes c b).getD j 0 = byteAt b j := by
  simp [firstBytes, List.getD_eq_getElem?_getD, h]

@[simp] theorem xorBytes_length (s t : List Byte) : (xorBytes s t).length = min s.length t.length := by
  simp [xorBytes]

theorem xorBytes_getD {s t : List Byte} {j : Nat} (hs : j < s.length) (ht : j < t.length) :
    (xorBytes s t).getD j 0 = s.getD j 0 ^^^ t.getD j 0 := by
  simp [xorBytes, List.getD_eq_getElem?_getD, hs, ht]

end Sys2Proof.Machine
end

