-- ==== Sys2Proof/Laws/Memory.lean ====
section
/-! SUPPORT. Everything the memory operations can do: what a read finds after a write, and that the canonical form is
kept. -/

namespace Sys2Proof.Machine

/-! ### One memory -/

theorem Memory.read_write (m : Memory) (a a' : Nat) (v : Byte) :
    Memory.read (Memory.write m a v) a' = if a' = a then some v else Memory.read m a' := by
  induction m with
  | nil => simp [Memory.write, Memory.read, eq_comm]
  | cons c rest ih =>
    obtain ⟨a₀, v₀⟩ := c
    simp only [Memory.write]
    split
    · simp [Memory.read, eq_comm]
    · split
      · subst_vars
        simp only [Memory.read]
        grind
      · simp only [Memory.read, ih]
        grind

theorem Memory.mem_write {m : Memory} {a : Nat} {v : Byte} {c : Host.Cell} (h : c ∈ Memory.write m a v) :
    c = (a, v) ∨ c ∈ m := by
  induction m with
  | nil => simpa [Memory.write] using h
  | cons d rest ih =>
    simp only [Memory.write] at h
    grind

/-- A write keeps the canonical form. -/
theorem Memory.wf_write {m : Memory} (h : Memory.wf m) (a : Nat) (v : Byte) : Memory.wf (Memory.write m a v) := by
  induction m with
  | nil => simp [Memory.write]
  | cons c rest ih =>
    have hc := List.pairwise_cons.mp h
    simp only [Memory.write]
    split
    · refine List.pairwise_cons.mpr ⟨fun d hd => ?_, h⟩
      rcases List.mem_cons.mp hd with rfl | hd
      · assumption
      · exact Nat.lt_trans ‹_› (hc.1 d hd)
    · split
      · exact List.pairwise_cons.mpr ⟨fun d hd => by have := hc.1 d hd; omega, hc.2⟩
      · refine List.pairwise_cons.mpr ⟨fun d hd => ?_, ih hc.2⟩
        rcases Memory.mem_write hd with rfl | hd
        · show c.1 < a
          omega
        · exact hc.1 d hd

/-! ### The three buffers -/

theorem Buffers.get_set (m : Buffers) (b b' : Buffer) (v : Memory) :
    (m.set b v).get b' = if b' = b then v else m.get b' := by
  cases b <;> cases b' <;> rfl

theorem Buffers.set_get (m : Buffers) (b : Buffer) : m.set b (m.get b) = m := by
  cases b <;> rfl

theorem Buffers.set_set (m : Buffers) (b : Buffer) (v w : Memory) : (m.set b v).set b w = m.set b w := by
  cases b <;> rfl

/-- What is stored after storing one byte: that byte there, everything else as before. -/
theorem stored_store (s : State) (b b' : Buffer) (off off' : Nat) (v : Byte) :
    stored (store s b off v) b' off' = if b' = b ∧ off' = off then some v else stored s b' off' := by
  simp only [stored, store, Buffers.get_set]
  by_cases hb : b' = b
  · subst hb
    simp [Memory.read_write]
  · simp [hb]

/-! ### `MemRead` and `MemWrite` (R62) -/

@[simp] theorem memRead_length (s : State) (b : Buffer) (off n : Nat) : (memRead s b off n).length = n := by
  simp [memRead]

theorem memRead_getD (s : State) (b : Buffer) (off : Nat) {n j : Nat} (h : j < n) :
    (memRead s b off n).getD j 0 = content s b (off + j) := by
  simp [memRead, List.getD_eq_getElem?_getD, h]

/-- `MemWrite` changes one buffer's memory and nothing else. -/
theorem memWrite_eq (s : State) (b : Buffer) (off : Nat) (bytes : List Byte) :
    ∃ m, memWrite s b off bytes = { s with buf := s.buf.set b m } := by
  induction bytes generalizing s off with
  | nil => exact ⟨s.buf.get b, by rw [Buffers.set_get]; rfl⟩
  | cons v rest ih =>
    obtain ⟨m, hm⟩ := ih (store s b off v) (off + 1)
    exact ⟨m, by rw [memWrite, hm]; simp [store, Buffers.set_set]⟩

/-- What is stored after `MemWrite`: the bytes at their offsets, everything else as before. -/
theorem stored_memWrite (s : State) (b b' : Buffer) (off a : Nat) (bytes : List Byte) :
    stored (memWrite s b off bytes) b' a =
      if b' = b ∧ off ≤ a ∧ a < off + bytes.length then some (bytes.getD (a - off) 0) else stored s b' a := by
  induction bytes generalizing s off with
  | nil =>
    simp only [memWrite, List.length_nil]
    rw [if_neg (by omega)]
  | cons v rest ih =>
    rw [memWrite, ih, stored_store]
    simp only [List.length_cons]
    by_cases hb : b' = b
    · by_cases ha : a = off
      · subst ha
        simp [hb]
      · by_cases hr : off + 1 ≤ a ∧ a < off + 1 + rest.length
        · have : a - off = a - (off + 1) + 1 := by omega
          rw [if_pos ⟨hb, hr⟩, if_pos ⟨hb, by omega⟩, this, List.getD_cons_succ]
        · rw [if_neg (by omega), if_neg (by omega), if_neg (by omega)]
    · simp [hb]

/-- `MemWrite` keeps the canonical form of every buffer. -/
theorem memWrite_wf (s : State) (b b' : Buffer) (off : Nat) (bytes : List Byte) (h : Memory.wf (s.buf.get b')) :
    Memory.wf ((memWrite s b off bytes).buf.get b') := by
  induction bytes generalizing s off with
  | nil => exact h
  | cons v rest ih =>
    apply ih
    simp only [store, Buffers.get_set]
    split
    · subst_vars
      exact Memory.wf_write h _ _
    · exact h

/-- Every offset listed after `MemWrite` was listed before or lies in the range written. -/
theorem memWrite_mem {s : State} {b b' : Buffer} {off : Nat} {bytes : List Byte} {c : Host.Cell}
    (h : c ∈ (memWrite s b off bytes).buf.get b') :
    c ∈ s.buf.get b' ∨ (b' = b ∧ off ≤ c.1 ∧ c.1 < off + bytes.length) := by
  induction bytes generalizing s off with
  | nil => exact .inl h
  | cons v rest ih =>
    simp only [List.length_cons]
    rcases ih h with h | h
    · simp only [store, Buffers.get_set] at h
      split at h
      · subst_vars
        rcases Memory.mem_write h with rfl | h
        · exact .inr ⟨rfl, Nat.le_refl _, by omega⟩
        · exact .inl h
      · exact .inl h
    · exact .inr ⟨h.1, by omega, by omega⟩

/-- Storing one byte keeps the canonical form of every buffer. -/
theorem store_wf (s : State) (b b' : Buffer) (off : Nat) (v : Byte) (h : Memory.wf (s.buf.get b')) :
    Memory.wf ((store s b off v).buf.get b') :=
  memWrite_wf s b b' off [v] h

/-- The buffers are canonical after reset. -/
theorem reset_wf (b : Buffer) : Memory.wf (State.reset.buf.get b) := by
  cases b <;> exact List.Pairwise.nil

end Sys2Proof.Machine
end

