-- ==== Sys2Proof/Laws/State.lean ====
section
/-! SUPPORT. What each named update of the state leaves in each of its fields, true by rfl. -/

namespace Sys2Proof.Machine

variable (s : State)

@[simp] theorem enter_regs (p : BitVec 4) : (enter s p).regs = s.regs := rfl
@[simp] theorem enter_w (p : BitVec 4) : (enter s p).w = { s.w with phase := p } := rfl
@[simp] theorem enter_buf (p : BitVec 4) : (enter s p).buf = s.buf := rfl
@[simp] theorem enter_port (p : BitVec 4) : (enter s p).port = s.port := rfl
@[simp] theorem enter_caps (p : BitVec 4) : (enter s p).caps = s.caps := rfl
@[simp] theorem enter_env (p : BitVec 4) : (enter s p).env = s.env := rfl

@[simp] theorem enterAt_regs (k : BitVec 64) (p : BitVec 4) : (enterAt s k p).regs = s.regs := rfl
@[simp] theorem enterAt_w (k : BitVec 64) (p : BitVec 4) : (enterAt s k p).w = { s.w with idx := k, phase := p } := rfl
@[simp] theorem enterAt_buf (k : BitVec 64) (p : BitVec 4) : (enterAt s k p).buf = s.buf := rfl
@[simp] theorem enterAt_port (k : BitVec 64) (p : BitVec 4) : (enterAt s k p).port = s.port := rfl
@[simp] theorem enterAt_caps (k : BitVec 64) (p : BitVec 4) : (enterAt s k p).caps = s.caps := rfl
@[simp] theorem enterAt_env (k : BitVec 64) (p : BitVec 4) : (enterAt s k p).env = s.env := rfl

@[simp] theorem failCheck_regs (c : BitVec 2) (z : BitVec 3) : (failCheck s c z).regs = s.regs := rfl
@[simp] theorem failCheck_w (c : BitVec 2) (z : BitVec 3) : (failCheck s c z).w = { s.w with ecode := c, ecause := z, phase := 0xB } := rfl
@[simp] theorem failCheck_buf (c : BitVec 2) (z : BitVec 3) : (failCheck s c z).buf = s.buf := rfl
@[simp] theorem failCheck_port (c : BitVec 2) (z : BitVec 3) : (failCheck s c z).port = s.port := rfl
@[simp] theorem failCheck_caps (c : BitVec 2) (z : BitVec 3) : (failCheck s c z).caps = s.caps := rfl
@[simp] theorem failCheck_env (c : BitVec 2) (z : BitVec 3) : (failCheck s c z).env = s.env := rfl

@[simp] theorem complete_regs (e : Err) (v : Bool) : (complete s e v).regs = { s.regs with status := s.regs.status.completed v, err := e } := rfl
@[simp] theorem complete_w (e : Err) (v : Bool) : (complete s e v).w = Work.clear := rfl
@[simp] theorem complete_buf (e : Err) (v : Bool) : (complete s e v).buf = s.buf := rfl
@[simp] theorem complete_port (e : Err) (v : Bool) : (complete s e v).port = s.port := rfl
@[simp] theorem complete_caps (e : Err) (v : Bool) : (complete s e v).caps = s.caps := rfl
@[simp] theorem complete_env (e : Err) (v : Bool) : (complete s e v).env = s.env := rfl

@[simp] theorem acceptCommand_regs (v : Byte) : (acceptCommand s v).regs = { s.regs with status := s.regs.status.accepted, err := Err.none } := rfl
@[simp] theorem acceptCommand_w (v : Byte) : (acceptCommand s v).w = { s.w with op := v, phase := 1 } := rfl
@[simp] theorem acceptCommand_buf (v : Byte) : (acceptCommand s v).buf = s.buf := rfl
@[simp] theorem acceptCommand_port (v : Byte) : (acceptCommand s v).port = s.port := rfl
@[simp] theorem acceptCommand_caps (v : Byte) : (acceptCommand s v).caps = s.caps := rfl
@[simp] theorem acceptCommand_env (v : Byte) : (acceptCommand s v).env = s.env := rfl

@[simp] theorem takeReset_regs : (takeReset s).regs = Regs.reset := rfl
@[simp] theorem takeReset_w : (takeReset s).w = Work.clear := rfl
@[simp] theorem takeReset_buf : (takeReset s).buf = Buffers.unspecified := rfl
@[simp] theorem takeReset_port : (takeReset s).port = none := rfl
@[simp] theorem takeReset_caps : (takeReset s).caps = s.caps := rfl
@[simp] theorem takeReset_env : (takeReset s).env = { s.env with resets := s.env.resets + 1 } := rfl

@[simp] theorem store_regs (b : Buffer) (off : Nat) (v : Byte) : (store s b off v).regs = s.regs := rfl
@[simp] theorem store_w (b : Buffer) (off : Nat) (v : Byte) : (store s b off v).w = s.w := rfl
@[simp] theorem store_buf (b : Buffer) (off : Nat) (v : Byte) : (store s b off v).buf = s.buf.set b (Memory.write (s.buf.get b) off v) := rfl
@[simp] theorem store_port (b : Buffer) (off : Nat) (v : Byte) : (store s b off v).port = s.port := rfl
@[simp] theorem store_caps (b : Buffer) (off : Nat) (v : Byte) : (store s b off v).caps = s.caps := rfl
@[simp] theorem store_env (b : Buffer) (off : Nat) (v : Byte) : (store s b off v).env = s.env := rfl

@[simp] theorem regStore_regs (off : Nat) (v : Byte) : (regStore s off v).regs = s.regs.put off v := rfl
@[simp] theorem regStore_w (off : Nat) (v : Byte) : (regStore s off v).w = s.w := rfl
@[simp] theorem regStore_buf (off : Nat) (v : Byte) : (regStore s off v).buf = s.buf := rfl
@[simp] theorem regStore_port (off : Nat) (v : Byte) : (regStore s off v).port = s.port := rfl
@[simp] theorem regStore_caps (off : Nat) (v : Byte) : (regStore s off v).caps = s.caps := rfl
@[simp] theorem regStore_env (off : Nat) (v : Byte) : (regStore s off v).env = s.env := rfl

@[simp] theorem answered_regs : (answered s).regs = s.regs := rfl
@[simp] theorem answered_w : (answered s).w = s.w := rfl
@[simp] theorem answered_buf : (answered s).buf = s.buf := rfl
@[simp] theorem answered_port : (answered s).port = none := rfl
@[simp] theorem answered_caps : (answered s).caps = s.caps := rfl
@[simp] theorem answered_env : (answered s).env = s.env := rfl

@[simp] theorem setX_regs (v : Block) : (setX s v).regs = s.regs := rfl
@[simp] theorem setX_w (v : Block) : (setX s v).w = { s.w with x := v } := rfl
@[simp] theorem setX_buf (v : Block) : (setX s v).buf = s.buf := rfl
@[simp] theorem setX_port (v : Block) : (setX s v).port = none := rfl
@[simp] theorem setX_caps (v : Block) : (setX s v).caps = s.caps := rfl
@[simp] theorem setX_env (v : Block) : (setX s v).env = s.env := rfl

/-! ### The answer to a read -/

/-- A read's answer reaches the HOST and the draw count, and nothing else. -/
theorem respond_eq (v : Option Byte) :
    ∃ (b : Byte) (d : Nat), respond s v = { s with env := { s.env with returned := b :: s.env.returned, draws := d } } ∧
      (∀ x, v = some x → b = x ∧ d = s.env.draws) ∧ (v = none → d = s.env.draws + 1) := by
  cases v with
  | some x => exact ⟨x, s.env.draws, rfl, fun y h => ⟨Option.some.inj h, rfl⟩, nofun⟩
  | none => exact ⟨Config.anyByte s.env.draws, s.env.draws + 1, rfl, nofun, fun _ => rfl⟩

/-! ### The write gate -/

theorem hostWrite_busy {s : State} (h : s.regs.status.busy = true) (e : State) :
    hostWrite s e = { s with regs := { s.regs with status := { s.regs.status with wign := true } } } := by
  simp [hostWrite, h, Status.writeIgnored]

theorem hostWrite_idle {s : State} (h : s.regs.status.busy = false) (e : State) : hostWrite s e = e := by
  simp [hostWrite, h]

/-! ### `MemWrite` -/

theorem memWrite_fields (b : Buffer) (off : Nat) (bytes : List Byte) :
    (memWrite s b off bytes).regs = s.regs ∧ (memWrite s b off bytes).w = s.w ∧
      (memWrite s b off bytes).port = s.port ∧ (memWrite s b off bytes).caps = s.caps ∧
      (memWrite s b off bytes).env = s.env := by
  induction bytes generalizing s off with
  | nil => exact ⟨rfl, rfl, rfl, rfl, rfl⟩
  | cons v rest ih => exact ih (store s b off v) (off + 1)

@[simp] theorem memWrite_regs (b : Buffer) (off : Nat) (bytes : List Byte) : (memWrite s b off bytes).regs = s.regs :=
  (memWrite_fields s b off bytes).1

@[simp] theorem memWrite_w (b : Buffer) (off : Nat) (bytes : List Byte) : (memWrite s b off bytes).w = s.w :=
  (memWrite_fields s b off bytes).2.1

@[simp] theorem memWrite_port (b : Buffer) (off : Nat) (bytes : List Byte) : (memWrite s b off bytes).port = s.port :=
  (memWrite_fields s b off bytes).2.2.1

@[simp] theorem memWrite_caps (b : Buffer) (off : Nat) (bytes : List Byte) : (memWrite s b off bytes).caps = s.caps :=
  (memWrite_fields s b off bytes).2.2.2.1

@[simp] theorem memWrite_env (b : Buffer) (off : Nat) (bytes : List Byte) : (memWrite s b off bytes).env = s.env :=
  (memWrite_fields s b off bytes).2.2.2.2

/-! ### A plain register write -/

/-- A plain register write leaves STATUS, ERR and TAGOUT. -/
theorem put_readonly (r : Regs) (off : Nat) (v : Byte) :
    (r.put off v).status = r.status ∧ (r.put off v).err = r.err ∧ (r.put off v).tagOut = r.tagOut := by
  unfold Regs.put
  split_ifs <;> exact ⟨rfl, rfl, rfl⟩

end Sys2Proof.Machine
end

