-- ==== Sys2Proof/Laws/Step.lean ====
section
/-! SUPPORT. Everything a step can do: the step by whose turn it is, and what an instruction answers. -/

namespace Sys2Proof.Machine

/-- The state once the turn `t` is used up. -/
def withTurns (s : State) (ts : List Turn) : State := { s with env := { s.env with turns := ts } }

variable {s t : State} {ts : List Turn}

theorem takeTurn_planned {turn : Turn} (h : s.env.turns = turn :: ts) : takeTurn s = (turn, withTurns s ts) := by
  simp [takeTurn, withTurns, h]

/-- Whatever turn is taken, using it up changes the planned turns and the draw count alone. -/
theorem takeTurn_eq (s : State) :
    ∃ (turn : Turn) (ts : List Turn) (d : Nat),
      takeTurn s = (turn, { s with env := { s.env with turns := ts, draws := d } }) := by
  unfold takeTurn
  split
  · exact ⟨_, _, _, rfl⟩
  · exact ⟨_, s.env.turns, _, rfl⟩

theorem step_engine (h : s.env.turns = .engine :: ts) :
    step s = if s.regs.status.busy then exec (decodePhase s.w.phase) (withTurns s ts) else .next (withTurns s ts) := by
  simp only [step, takeTurn_planned h]
  rfl

theorem step_wait (h : s.env.turns = .wait :: ts) : step s = .next (raiseRequest (withTurns s ts)) := by
  simp only [step, takeTurn_planned h]

theorem step_reset (h : s.env.turns = .reset :: ts) : step s = .next (takeReset (withTurns s ts)) := by
  simp only [step, takeTurn_planned h]

theorem step_host_cons {w : BitVec 75} {hs : List (BitVec 75)} (h : s.env.turns = .host :: ts)
    (hh : s.env.host = w :: hs) :
    step s = exec (decodeHtx w) { s with env := { s.env with turns := ts, host := hs } } := by
  simp only [step, takeTurn_planned h, takeTransaction, withTurns, hh]

theorem step_host_nil (h : s.env.turns = .host :: ts) (hh : s.env.host = []) : step s = .next (withTurns s ts) := by
  simp only [step, takeTurn_planned h, takeTransaction, withTurns, hh]

/-- The four kinds of step: each uses up a turn (`s'`) and then does its agent's work. -/
theorem step_cases (h : step s = .next t) :
    ∃ (ts : List Turn) (d : Nat), let s' := { s with env := { s.env with turns := ts, draws := d } }
      (∃ w hs, s.env.host = w :: hs ∧ exec (decodeHtx w) { s' with env := { s'.env with host := hs } } = .next t) ∨
      (s.regs.status.busy = true ∧ exec (decodePhase s.w.phase) s' = .next t) ∨
      t = s' ∨ t = raiseRequest s' ∨ t = takeReset s' := by
  obtain ⟨turn, ts, d, hturn⟩ := takeTurn_eq s
  refine ⟨ts, d, ?_⟩
  simp only [step, hturn] at h
  cases turn with
  | host =>
    simp only [takeTransaction] at h
    obtain hh | ⟨w, hs, hh⟩ : s.env.host = [] ∨ ∃ w hs, s.env.host = w :: hs := by cases s.env.host <;> simp
    · simp only [hh] at h
      exact .inr (.inr (.inl (by rw [← Host.Outcome.next.inj h, ← hh])))
    · simp only [hh] at h
      exact .inl ⟨w, hs, hh, h⟩
  | engine =>
    simp only at h
    split at h
    · exact .inr (.inl ⟨‹_›, h⟩)
    · exact .inr (.inr (.inl (Host.Outcome.next.inj h).symm))
  | wait => exact .inr (.inr (.inr (.inl (Host.Outcome.next.inj h).symm)))
  | reset => exact .inr (.inr (.inr (.inr (Host.Outcome.next.inj h).symm)))

/-- The request turn changes nothing but the port. -/
theorem raiseRequest_eq (s : State) : ∃ q, raiseRequest s = { s with port := q } := by
  unfold raiseRequest
  split
  · split
    · exact ⟨_, rfl⟩
    · exact ⟨s.port, rfl⟩
  · exact ⟨s.port, rfl⟩

end Sys2Proof.Machine
end

