-- ==== Sys2Proof/Laws/Exec.lean ====
section
/-! SUPPORT. Everything a host transaction can do, said once for all of them, and what no instruction touches. -/

namespace Sys2Proof.Machine

/-- The effects a host transaction can have on the machine. -/
inductive HostEffect (s : State) : State → Prop
  /-- Nothing (CMD_NOP, a write to DOUT, an ignored buffer write). -/
  | none : HostEffect s s
  /-- WIGN alone (R30, R68). -/
  | wign (b : Bool) : HostEffect s { s with regs := { s.regs with status := { s.regs.status with wign := b } } }
  /-- A read's answer (R74). -/
  | answer (r : List Byte) (d : Nat) : HostEffect s { s with env := { s.env with returned := r, draws := d } }
  /-- A command is accepted (R192). -/
  | accept (v : Byte) : s.regs.status.busy = false → HostEffect s (acceptCommand s v)
  /-- A register byte is written (R67). -/
  | reg (off : Nat) (v : Byte) : s.regs.status.busy = false → HostEffect s (regStore s off v)
  /-- A byte of AAD or DIN is stored (R63, R64). -/
  | buffer (b : Buffer) (off : Nat) (v : Byte) :
      s.regs.status.busy = false → b ≠ .dout → off < s.capOf b → HostEffect s (store s b off v)

theorem hostWrite_effect {s e : State} (h : s.regs.status.busy = false → HostEffect s e) :
    HostEffect s (hostWrite s e) := by
  cases hb : s.regs.status.busy with
  | true => rw [hostWrite_busy hb]; exact .wign true
  | false => rw [hostWrite_idle hb]; exact h hb

theorem hostStore_effect {s : State} {b : Buffer} (hb : s.regs.status.busy = false) (hd : b ≠ .dout) (off : Nat)
    (v : Byte) : HostEffect s (hostStore s b off v) := by
  unfold hostStore
  split
  · exact .buffer b off v hb hd ‹_›
  · exact .none

theorem respond_effect (s : State) (v : Option Byte) : HostEffect s (respond s v) := by
  obtain ⟨b, d, h, -⟩ := respond_eq s v
  rw [h]
  exact .answer _ _

/-- Every host transaction answers a next state, with one of the six effects. -/
theorem exec_host {i : Instr} (hi : i.isHost = true) (s : State) : ∃ t, exec i s = .next t ∧ HostEffect s t := by
  cases i with
  | cmdNop => exact ⟨_, rfl, hostWrite_effect fun _ => .none⟩
  | encrypt => exact ⟨_, rfl, hostWrite_effect (.accept _)⟩
  | decrypt => exact ⟨_, rfl, hostWrite_effect (.accept _)⟩
  | cmdRsvd data => exact ⟨_, rfl, hostWrite_effect (.accept _)⟩
  | statusW data => exact ⟨_, rfl, .wign _⟩
  | regWr off data => exact ⟨_, rfl, hostWrite_effect (.reg _ _)⟩
  | regRd off => exact ⟨_, rfl, respond_effect _ _⟩
  | aadWr off data => exact ⟨_, rfl, hostWrite_effect fun hb => hostStore_effect (b := .aad) hb (by decide) _ _⟩
  | aadRd off => exact ⟨_, rfl, respond_effect _ _⟩
  | dinWr off data => exact ⟨_, rfl, hostWrite_effect fun hb => hostStore_effect (b := .din) hb (by decide) _ _⟩
  | dinRd off => exact ⟨_, rfl, respond_effect _ _⟩
  | doutWr off data => exact ⟨_, rfl, hostWrite_effect fun _ => .none⟩
  | doutRd off => exact ⟨_, rfl, respond_effect _ _⟩
  | idle | check | macB0 | macAad | macPay | macFinal | ksS0 | ksBlk | tagMask => contradiction
  | ctCompare | fin | errfin | phaseRsvd _ => contradiction

/-- A transaction word is always a host instruction (R95). -/
theorem decodeHtx_isHost (w : BitVec 75) : (decodeHtx w).isHost = true := by
  unfold decodeHtx
  split
  · cases htxSpace w with
    | reg =>
      simp only [decodeWrite, decodeCommand]
      split
      · split <;> rfl
      · split <;> rfl
    | aad | din | dout => rfl
  · cases htxSpace w <;> rfl

/-- A code of W.PHASE is never a host instruction. -/
theorem decodePhase_not_isHost (c : BitVec 4) : (decodePhase c).isHost = false := by
  revert c
  decide

/-- What the engine's side of every host effect leaves alone. -/
theorem HostEffect.frame {s t : State} (h : HostEffect s t) :
    t.caps = s.caps ∧ t.port = s.port ∧ t.buf.dout = s.buf.dout ∧ t.regs.tagOut = s.regs.tagOut ∧
      t.regs.status.authok = (s.regs.status.authok && t.regs.status.authok) ∧ t.env.resets = s.env.resets := by
  cases h with
  | none | wign | answer => simp
  | accept v hb => simp [Status.accepted]
  | reg off v hb =>
    have := put_readonly s.regs off v
    simp [this.2.2, this.1]
  | buffer b off v hb hd hc => cases b <;> simp_all [Buffers.set]

end Sys2Proof.Machine
end

