-- ==== Sys2Proof/Laws/PerInstr.lean ====
section
/-! SUPPORT. One lemma per instruction: its word fits its row of spec/opcode_table.json. -/

namespace Sys2Proof.Laws.FitsItsRow

/-- A row of spec/opcode_table.json: every mask there covers the bits of the word from some bit upwards, the
lowest of them `low`, and `pattern` is the row's match. -/
structure Row where
  width : Nat
  low : Nat
  pattern : Nat

/-- The row of each instruction. -/
def row : Instr → Row
  | .cmdNop => ⟨75, 0, 0x4000000000000000000⟩
  | .encrypt => ⟨75, 0, 0x4000000000000000001⟩
  | .decrypt => ⟨75, 0, 0x4000000000000000002⟩
  | .cmdRsvd _ => ⟨75, 8, 0x4000000000000000000⟩
  | .statusW _ => ⟨75, 8, 0x4000000000000000100⟩
  | .regWr _ _ => ⟨75, 72, 0x4000000000000000000⟩
  | .regRd _ => ⟨75, 72, 0x0000000000000000000⟩
  | .aadWr _ _ => ⟨75, 72, 0x5000000000000000000⟩
  | .aadRd _ => ⟨75, 72, 0x1000000000000000000⟩
  | .dinWr _ _ => ⟨75, 72, 0x6000000000000000000⟩
  | .dinRd _ => ⟨75, 72, 0x2000000000000000000⟩
  | .doutWr _ _ => ⟨75, 72, 0x7000000000000000000⟩
  | .doutRd _ => ⟨75, 72, 0x3000000000000000000⟩
  | .idle => ⟨4, 0, 0x0⟩
  | .check => ⟨4, 0, 0x1⟩
  | .macB0 => ⟨4, 0, 0x2⟩
  | .macAad => ⟨4, 0, 0x3⟩
  | .macPay => ⟨4, 0, 0x4⟩
  | .macFinal => ⟨4, 0, 0x5⟩
  | .ksS0 => ⟨4, 0, 0x6⟩
  | .ksBlk => ⟨4, 0, 0x7⟩
  | .tagMask => ⟨4, 0, 0x8⟩
  | .ctCompare => ⟨4, 0, 0x9⟩
  | .fin => ⟨4, 0, 0xA⟩
  | .errfin => ⟨4, 0, 0xB⟩
  | .phaseRsvd _ => ⟨4, 2, 0xC⟩

/-- The word of the instruction has its format's width and its row's fixed bits. -/
def Statement (i : Instr) : Prop :=
  encodeWord i < 2 ^ (row i).width ∧ encodeWord i / 2 ^ (row i).low = (row i).pattern / 2 ^ (row i).low

/-- A transaction's word, by the fields that are fixed. -/
theorem htxWord_fits (rw : Nat) (space : Space) {off data : Nat} (h : rw < 2) (_ : off < 2 ^ 64) (_ : data < 2 ^ 8) :
    htxWord rw space off data < 2 ^ 75 ∧
      htxWord rw space off data / 2 ^ 8 = rw * 2 ^ 66 + space.code * 2 ^ 64 + off ∧
      htxWord rw space off data / 2 ^ 72 = rw * 4 + space.code := by
  have : space.code < 4 := by cases space <;> decide
  unfold htxWord
  omega

theorem cmdNop : Statement .cmdNop := ⟨by decide, by decide⟩
theorem encrypt : Statement .encrypt := ⟨by decide, by decide⟩
theorem decrypt : Statement .decrypt := ⟨by decide, by decide⟩

theorem cmdRsvd (data : Byte) : Statement (.cmdRsvd data) := by
  have h := htxWord_fits 1 .reg (off := 0) (data := data.toNat) (by decide) (by omega) data.isLt
  have hp : htxWord 1 .reg 0 data.toNat / 2 ^ 8 = 0x4000000000000000000 / 2 ^ 8 := by
    rw [h.2.1]
    simp [Space.code]
  exact ⟨h.1, hp⟩

theorem statusW (data : Byte) : Statement (.statusW data) := by
  have h := htxWord_fits 1 .reg (off := 1) (data := data.toNat) (by decide) (by omega) data.isLt
  have hp : htxWord 1 .reg 1 data.toNat / 2 ^ 8 = 0x4000000000000000100 / 2 ^ 8 := by
    rw [h.2.1]
    simp [Space.code]
  exact ⟨h.1, hp⟩

theorem regWr (off : BitVec 64) (data : Byte) : Statement (.regWr off data) := by
  have h := htxWord_fits 1 .reg (off := off.toNat) (data := data.toNat) (by decide) off.isLt data.isLt
  exact ⟨h.1, h.2.2.trans (by simp [row, Space.code])⟩

theorem regRd (off : BitVec 64) : Statement (.regRd off) := by
  have h := htxWord_fits 0 .reg (off := off.toNat) (data := 0) (by decide) off.isLt (by decide)
  exact ⟨h.1, h.2.2.trans (by simp [row, Space.code])⟩

theorem aadWr (off : BitVec 64) (data : Byte) : Statement (.aadWr off data) := by
  have h := htxWord_fits 1 .aad (off := off.toNat) (data := data.toNat) (by decide) off.isLt data.isLt
  exact ⟨h.1, h.2.2.trans (by simp [row, Space.code])⟩

theorem aadRd (off : BitVec 64) : Statement (.aadRd off) := by
  have h := htxWord_fits 0 .aad (off := off.toNat) (data := 0) (by decide) off.isLt (by decide)
  exact ⟨h.1, h.2.2.trans (by simp [row, Space.code])⟩

theorem dinWr (off : BitVec 64) (data : Byte) : Statement (.dinWr off data) := by
  have h := htxWord_fits 1 .din (off := off.toNat) (data := data.toNat) (by decide) off.isLt data.isLt
  exact ⟨h.1, h.2.2.trans (by simp [row, Space.code])⟩

theorem dinRd (off : BitVec 64) : Statement (.dinRd off) := by
  have h := htxWord_fits 0 .din (off := off.toNat) (data := 0) (by decide) off.isLt (by decide)
  exact ⟨h.1, h.2.2.trans (by simp [row, Space.code])⟩

theorem doutWr (off : BitVec 64) (data : Byte) : Statement (.doutWr off data) := by
  have h := htxWord_fits 1 .dout (off := off.toNat) (data := data.toNat) (by decide) off.isLt data.isLt
  exact ⟨h.1, h.2.2.trans (by simp [row, Space.code])⟩

theorem doutRd (off : BitVec 64) : Statement (.doutRd off) := by
  have h := htxWord_fits 0 .dout (off := off.toNat) (data := 0) (by decide) off.isLt (by decide)
  exact ⟨h.1, h.2.2.trans (by simp [row, Space.code])⟩

theorem idle : Statement .idle := ⟨by decide, by decide⟩
theorem check : Statement .check := ⟨by decide, by decide⟩
theorem macB0 : Statement .macB0 := ⟨by decide, by decide⟩
theorem macAad : Statement .macAad := ⟨by decide, by decide⟩
theorem macPay : Statement .macPay := ⟨by decide, by decide⟩
theorem macFinal : Statement .macFinal := ⟨by decide, by decide⟩
theorem ksS0 : Statement .ksS0 := ⟨by decide, by decide⟩
theorem ksBlk : Statement .ksBlk := ⟨by decide, by decide⟩
theorem tagMask : Statement .tagMask := ⟨by decide, by decide⟩
theorem ctCompare : Statement .ctCompare := ⟨by decide, by decide⟩
theorem fin : Statement .fin := ⟨by decide, by decide⟩
theorem errfin : Statement .errfin := ⟨by decide, by decide⟩

theorem phaseRsvd (low : BitVec 2) : Statement (.phaseRsvd low) := by
  refine ⟨?_, ?_⟩ <;> revert low <;> decide

end Sys2Proof.Laws.FitsItsRow
end

