-- ==== Sys2Proof/Laws/Run.lean ====
section
/-! SUPPORT. Runs: how they begin and compose, what an idle engine without a program keeps, and when a run is
weakly fair. -/

namespace Sys2Proof.Machine

/-- A run begins with one step. -/
theorem run_succ_of_step {s t : State} (h : step s = .next t) (k : Nat) :
    Sys2Proof.core.run (k + 1) s = Sys2Proof.core.run k t := by
  have hc : Sys2Proof.core.step s = .next t := h
  refine (Host.Core.run.eq_2 Sys2Proof.core s k).trans ?_
  rw [hc]

/-- A run that answers begins with a step that does. -/
theorem step_of_run_succ {s u : State} {k : Nat} (h : Sys2Proof.core.run (k + 1) s = .next u) :
    ∃ t, step s = .next t ∧ Sys2Proof.core.run k t = .next u := by
  have hr := (Host.Core.run.eq_2 Sys2Proof.core s k).symm.trans h
  have hc : Sys2Proof.core.step s = step s := rfl
  rw [hc] at hr
  cases hs : step s with
  | next t => exact ⟨t, rfl, by rwa [hs] at hr⟩
  | fault r => rw [hs] at hr; cases hr
  | refused r => rw [hs] at hr; cases hr

/-- Runs compose. -/
theorem run_add {a : Nat} {s t : State} (h : Sys2Proof.core.run a s = .next t) (b : Nat) :
    Sys2Proof.core.run (a + b) s = Sys2Proof.core.run b t := by
  induction a generalizing s with
  | zero => cases h; rw [Nat.zero_add]
  | succ a ih =>
    obtain ⟨u, hu, hr⟩ := step_of_run_succ h
    rw [show a + 1 + b = a + b + 1 by omega, run_succ_of_step hu, ih hr]

/-- Weak fairness holds of every later state of the run. -/
theorem WeaklyFair.of_run {s t : State} (h : WeaklyFair s) {k : Nat} (hr : Sys2Proof.core.run k s = .next t) :
    WeaklyFair t where
  scheduled j u hu := h.scheduled (k + j) u (by rw [run_add hr, hu])
  answered j u hu := h.answered (k + j) u (by rw [run_add hr, hu])

/-- The engine is idle, its port is empty and the HOST has nothing to issue. -/
def Quiet (s : State) : Prop := s.env.host = [] ∧ s.regs.status.busy = false ∧ s.port = none

/-- A quiet engine stays quiet, whatever turns are drawn. -/
theorem Quiet.step {s t : State} (hq : Quiet s) (h : step s = .next t) : Quiet t := by
  obtain ⟨hh, hb, hp⟩ := hq
  obtain ⟨ts, d, hc⟩ := step_cases h
  obtain ⟨w, hs, hw, -⟩ | ⟨hb', -⟩ | rfl | rfl | rfl := hc
  · simp [hh] at hw
  · simp [hb] at hb'
  · exact ⟨hh, hb, hp⟩
  · simp [Quiet, raiseRequest, hh, hb, hp]
  · exact ⟨hh, rfl, rfl⟩

theorem Quiet.run {s t : State} (hq : Quiet s) {k : Nat} (h : Sys2Proof.core.run k s = .next t) : Quiet t := by
  induction k generalizing s with
  | zero => cases h; exact hq
  | succ k ih =>
    obtain ⟨u, hu, hr⟩ := step_of_run_succ h
    exact ih (hq.step hu) hr

/-- A run that comes to a quiet state is weakly fair. -/
theorem WeaklyFair.of_quiet {s e : State} {n : Nat} (hn : Sys2Proof.core.run n s = .next e) (hq : Quiet e) :
    WeaklyFair s := by
  have later : ∀ {k : Nat} {t : State}, Sys2Proof.core.run k s = .next t →
      (∃ j, Sys2Proof.core.run j t = .next e) ∨ Quiet t := by
    intro k t ht
    obtain hk | hk := Nat.le_total k n
    · exact .inl ⟨n - k, by rw [← hn, ← Nat.add_sub_cancel' hk, run_add ht, Nat.add_sub_cancel_left]⟩
    · exact .inr (hq.run (k := k - n) (by rw [← ht, ← Nat.add_sub_cancel' hk, run_add hn, Nat.add_sub_cancel_left]))
  constructor
  · intro k t ht _
    obtain ⟨j, hj⟩ | hqt := later ht
    · exact ⟨j, e, hj, .inl hq.2.1⟩
    · exact ⟨0, t, rfl, .inl hqt.2.1⟩
  · intro k t ht _
    obtain ⟨j, hj⟩ | hqt := later ht
    · exact ⟨j, e, hj, hq.2.2⟩
    · exact ⟨0, t, rfl, hqt.2.2⟩

end Sys2Proof.Machine
end

