-- ==== Sys2Proof/Laws/Safety.lean ====
section
/-! SUPPORT. How the invariant is met between commands and right after a command is accepted. -/

namespace Sys2Proof.Machine

/-- The invariant of an engine between commands comes down to its buffers, its error and its port. -/
theorem Sound.of_idle {s : State} (hb : s.regs.status.busy = false) (hw : s.w = Work.clear) (hp : s.port = none)
    (he : s.regs.err ∈ errValues) (ha : s.regs.status.authok = true → s.regs.status.done = true ∧ s.regs.err = Err.none)
    (hc : s.buf.canonical) (hi : Buffers.within s) : Sound s where
  canonical := hc
  within := hi
  busy_iff := by simp [hb, hw, Work.clear]
  phase_le := by simp [hw, Work.clear]
  running := by simp [hb]
  idle_clear := fun _ => hw
  err_value := he
  authok_done := ha
  checked := by simp [hw, Work.clear]
  compare_decrypt := by simp [hw, Work.clear]
  aad_index := by simp [hw, Work.clear]
  pay_index := by simp [hw, Work.clear]
  ks_index := by simp [hw, Work.clear]
  reporting := by simp [hw, Work.clear]
  request := by simp [hp]

/-- Accepting a command between commands keeps the invariant. -/
theorem Sound.acceptCommand {s : State} (h : Sound s) (hb : s.regs.status.busy = false) (v : Byte) :
    Sound (acceptCommand s v) := by
  have hp : s.port = none := by
    cases hq : s.port with
    | none => rfl
    | some r => exact absurd (h.request r hq).1 (by simp [hb])
  constructor <;> simp [Machine.acceptCommand, Status.accepted, Err.none, errValues, hp]
  · exact h.canonical
  · exact h.within

end Sys2Proof.Machine
end

