-- ==== Sys2Proof/Tests/Slice0.lean ====
section
/-! SUPPORT. The model's own tests: words, refusals and one step at a time against the vectors of
spec/95_test_vectors.md, and for each obligation with hypotheses a witness that meets them together. -/

namespace Sys2Proof.Tests

open Sys2Proof.Machine

/-! ### Small states -/

/-- The engine after reset with the capacities the spec's programs take (AAD_CAP = DATA_CAP = 64). -/
def fresh : State := { State.reset with caps := { aad := 64, data := 64 } }

/-- Bytes `a`, `a + 1`, … -/
def counting (a n : Nat) : List Byte := (List.range n).map fun j => BitVec.ofNat 8 (a + j)

/-- The buffer cells that hold these bytes from offset 0. -/
def cells (bytes : List Byte) : Memory := bytes.zipIdx.map fun c => (c.2, c.1)

/-- A byte register that starts with these bytes. -/
def register (n : Nat) (bytes : List Byte) : Vector Byte n := Vector.ofFn fun j => bytes.getD j 0

/-- Vector S1 (KEYLEN 16, NLEN 12, TLEN 8, ALEN 20, PLEN 24), no command issued. -/
def s1 : State :=
  { fresh with
    regs := { fresh.regs with
      keyLen := 16, nLen := 12, tLen := 8, aLen := 20, pLen := 24
      key := register 32 (counting 0x40 16), nonce := register 13 (counting 0x10 12) }
    buf := { fresh.buf with aad := cells (counting 0 20), din := cells (counting 0x20 24) } }

/-- Vector S1 while the micro-operation `phase` of the command `op` is current. -/
def s1At (op : Byte) (phase : BitVec 4) (idx : BitVec 64) : State :=
  { s1 with
    regs := { s1.regs with status := { busy := true, done := false, authok := false, wign := false } }
    w := { s1.w with op := op, phase := phase, idx := idx, l := 3, m := 8 } }

/-- A message of one AAD byte and one payload byte, otherwise as S1. -/
def short : State := { s1 with regs := { s1.regs with aLen := 1, pLen := 1 } }

/-- With these transactions and turns to come. -/
def withPlan (s : State) (host : List (BitVec 75)) (turns : List Turn) : State :=
  { s with env := { s.env with host := host, turns := turns } }

/-- The state an outcome answers. -/
def after (o : Host.Outcome State Fault Refusal) : State :=
  match o with
  | .next t => t
  | .fault _ => fresh
  | .refused _ => fresh

/-! ### Well-formedness: ill-formed terms are refused (R93, R94) -/

theorem test_cmdRsvd_of_an_assigned_value_is_ill_formed :
    (Instr.cmdRsvd 0x00).wellFormed = false ∧ (Instr.cmdRsvd 0x02).wellFormed = false ∧
      (Instr.cmdRsvd 0x03).wellFormed = true := by decide

theorem test_regWr_of_cmd_or_status_is_ill_formed :
    (Instr.regWr 0x00 0x01).wellFormed = false ∧ (Instr.regWr 0x01 0x08).wellFormed = false ∧
      (Instr.regWr 0x02 0x00).wellFormed = true := by decide

/-! ### Decoding: words written out from R91, R93, R94, R110 and the programs P1 to P6 -/

theorem test_decode_commands :
    decodeHtx 0x4000000000000000000 = .cmdNop ∧ decodeHtx 0x4000000000000000001 = .encrypt ∧
      decodeHtx 0x4000000000000000002 = .decrypt ∧ decodeHtx 0x40000000000000000ff = .cmdRsvd 0xFF := by decide

theorem test_decode_registers :
    decodeHtx 0x4000000000000000108 = .statusW 0x08 ∧ decodeHtx 0x400000000000000535c = .regWr 0x53 0x5C ∧
      decodeHtx 0x0000000000000006f00 = .regRd 0x6F := by decide

theorem test_decode_buffers :
    decodeHtx 0x5000000000000001313 = .aadWr 0x13 0x13 ∧ decodeHtx 0x1000000000000000700 = .aadRd 0x07 ∧
      decodeHtx 0x60000000000000000ff = .dinWr 0x00 0xFF ∧ decodeHtx 0x2000000000000000000 = .dinRd 0x00 ∧
      decodeHtx 0x7000000000000000055 = .doutWr 0x00 0x55 ∧ decodeHtx 0x3000000000000000300 = .doutRd 0x03 := by decide

/-- The DATA of a read is ignored, and OFF is all of bits 71:8. -/
theorem test_decode_widest_fields :
    decodeHtx 0x3ffffffffffffffffff = .doutRd 0xFFFFFFFFFFFFFFFF ∧
      decodeHtx 0x4000000000000010001 = .regWr 0x100 0x01 ∧
      decodeHtx 0x4800000000000000001 = .regWr 0x8000000000000000 0x01 := by decide

theorem test_decode_phases :
    [0, 1, 2, 3, 4, 5, 6, 7, 8, 9, 10, 11].map decodePhase =
      [.idle, .check, .macB0, .macAad, .macPay, .macFinal, .ksS0, .ksBlk, .tagMask, .ctCompare, .fin, .errfin] ∧
    [12, 13, 14, 15].map decodePhase = [.phaseRsvd 0, .phaseRsvd 1, .phaseRsvd 2, .phaseRsvd 3] := by decide

theorem test_decode_refuses_by_name :
    decode [] = .error .badLength ∧ decode [0x10] = .error .bitsAboveWord ∧
      decode [0, 0, 0, 0, 0, 0, 0, 0, 0, 0x08] = .error .bitsAboveWord ∧ decode [0x0B] = .ok .errfin ∧
      decode [0x01, 0, 0, 0, 0, 0, 0, 0, 0, 0x04] = .ok .encrypt := by decide

theorem test_step_runs_a_placed_word :
    decodeTableWord 75 0x4000000000000000108 = some (.statusW 0x08) ∧ decodeTableWord 4 0xA = some .fin ∧
      (after (step (fresh.withFetchWord 75 0x4000000000000000310))).regs.keyLen = 0x10 ∧
      (after (step (fresh.withFetchWord 4 0xA))).regs.status.byte = 0x02 := by decide

/-! ### Block formats (V-FMT-B0, V-FMT-APREFIX, V-FMT-CTR) -/

theorem test_b0_of_s1 :
    (fmtB0 (counting 0x10 12) 20 24 8 3).toList = 0x5A :: counting 0x10 12 ++ [0x00, 0x00, 0x18] := by decide

theorem test_b0_at_the_widest :
    (fmtB0 (counting 0x10 7) 1 (2 ^ 64 - 1) 16 8).toList = 0x7F :: counting 0x10 7 ++ List.replicate 8 0xFF ∧
      (fmtB0 (counting 0x10 13) 0 0 6 2).toList = 0x11 :: counting 0x10 13 ++ [0x00, 0x00] := by decide

theorem test_aad_prefix :
    aadHeader 20 = [0x00, 0x14] ∧ aadHeader 65279 = [0xFE, 0xFF] ∧
      aadHeader 65280 = [0xFF, 0xFE, 0x00, 0x00, 0xFF, 0x00] ∧
      aadHeader (2 ^ 32) = [0xFF, 0xFF, 0, 0, 0, 1, 0, 0, 0, 0] := by decide

theorem test_aad_block_count :
    [0, 1, 14, 15, 20, 65279, 65280].map aadBlocks = [0, 1, 1, 2, 2, 4081, 4081] ∧
      aadBlocks (2 ^ 64 - 1) = 1152921504606846977 := by decide

theorem test_counter_block :
    (fmtCtr (counting 0x10 10) 5 0x10000).toList = 0x04 :: counting 0x10 10 ++ [0x00, 0x00, 0x01, 0x00, 0x00] ∧
      (fmtCtr (counting 0x10 7) 8 (2 ^ 60)).toList = 0x07 :: counting 0x10 7 ++ [0x10, 0, 0, 0, 0, 0, 0, 0] := by decide

/-! ### Host transactions -/

theorem test_accept : (after (exec .encrypt s1)).regs.status.byte = 0x01 ∧ (after (exec .encrypt s1)).w.phase = 1 ∧
    (after (exec .decrypt s1)).w.op = 0x02 ∧ (after (exec (.cmdRsvd 0xFF) s1)).w.op = 0xFF := by decide

theorem test_cmdNop_keeps_done :
    (after (exec .cmdNop (after (exec .errfin (s1At 1 0xB 0))))).regs.status.byte = 0x02 := by decide

/-- V-BUSY: a busy engine ignores a command, a key byte and a DOUT byte, and notes it in WIGN. -/
theorem test_busy_ignores_writes :
    (after (exec .decrypt (s1At 1 4 0))).w.op = 0x01 ∧ (after (exec .decrypt (s1At 1 4 0))).regs.status.byte = 0x09 ∧
      (after (exec (.regWr 0x20 0) (s1At 1 4 0))).regs.key = s1.regs.key ∧
      (after (exec (.doutWr 0 0x55) (s1At 1 4 0))).regs.status.byte = 0x09 := by decide

theorem test_statusW_clears_wign :
    (after (exec (.statusW 0x08) (after (exec .cmdNop (s1At 1 4 0))))).regs.status.byte = 0x01 ∧
      (after (exec (.statusW 0xF7) (after (exec .cmdNop (s1At 1 4 0))))).regs.status.byte = 0x09 := by decide

/-- WR64 ALEN, 8 writes 8 to the byte at 0x0F; the lowest offset is the most significant byte (R35). -/
theorem test_regWr_is_big_endian :
    (after (exec (.regWr 0x0F 8) fresh)).regs.aLen = 8 ∧ (after (exec (.regWr 0x10 1) fresh)).regs.pLen = 2 ^ 56 := by decide

theorem test_regWr_of_a_read_only_byte_is_ignored :
    (after (exec (.regWr 0x02 0xFF) s1)).regs = s1.regs ∧ (after (exec (.regWr 0x60 0xFF) s1)).regs = s1.regs := by decide

theorem test_regRd_returns_the_byte :
    (after (exec (.regRd 0x17) s1)).env.returned = [24] ∧ (after (exec (.regRd 0x4B) s1)).env.returned = [0x1B] := by decide

theorem test_regRd_of_write_only_and_reserved_bytes :
    (after (exec (.regRd 0x20) s1)).env.returned = [0] ∧ (after (exec (.regRd 0x103) s1)).env.returned = [0] := by decide

theorem test_aadWr_at_the_capacity_is_ignored :
    stored (after (exec (.aadWr 63 0xAB) s1)) .aad 63 = some 0xAB ∧ (after (exec (.aadWr 64 0xAB) s1)).buf = s1.buf := by decide

theorem test_aadRd : (after (exec (.aadRd 19) s1)).env.returned = [0x13] ∧
    (after (exec (.aadRd 64) s1)).env.returned = [0] := by decide

theorem test_dinWr_replaces_the_byte :
    stored (after (exec (.dinWr 0 0xFF) s1)) .din 0 = some 0xFF ∧ stored (after (exec (.dinWr 0 0xFF) s1)) .din 1 = some 0x21 := by decide

theorem test_dinRd : (after (exec (.dinRd 0) s1)).env.returned = [0x20] := by decide

theorem test_doutWr_is_ignored : exec (.doutWr 0 0x55) s1 = .next s1 := rfl

/-- A byte nothing has stored is a free value, and so is any byte of DOUT while BUSY = 1. -/
theorem test_doutRd_unwritten_is_free :
    (after (exec (.doutRd 0) s1)).env.returned = [Config.anyByte 0] ∧
      (after (exec (.doutRd 64) (s1At 1 4 0))).env.returned = [Config.anyByte 0] := ⟨rfl, rfl⟩

/-! ### Micro-operations -/

theorem test_idle : exec .idle s1 = .next s1 := rfl

theorem test_check_of_s1 :
    (after (exec .check (s1At 1 1 0))).w.phase = 2 ∧ (after (exec .check (s1At 2 1 0))).w.phase = 6 ∧
      (after (exec .check (s1At 1 1 0))).w.l = 3 ∧ (after (exec .check (s1At 1 1 0))).w.m = 8 := by decide

/-- V-CHK: the rows whose priority matters. -/
theorem test_check_priority :
    checkFailure { s1At 0xFF 1 0 with regs := { s1.regs with keyLen := 0, tLen := 0 } } = some (1, 1) ∧
      checkFailure { s1At 1 1 0 with regs := { s1.regs with keyLen := 20, nLen := 14 } } = some (1, 2) ∧
      checkFailure { s1At 1 1 0 with regs := { s1.regs with tLen := 5, nLen := 13, pLen := 65536 } } = some (1, 4) ∧
      checkFailure { s1At 1 1 0 with regs := { s1.regs with nLen := 13, pLen := 65535 } } = some (1, 6) ∧
      checkFailure { s1At 1 1 0 with regs := { s1.regs with nLen := 13, pLen := 65536 } } = some (2, 0) ∧
      checkFailure { s1At 1 1 0 with regs := { s1.regs with aLen := 65, pLen := 65 } } = some (1, 5) := by decide

theorem test_macB0_input : (macB0Input (s1At 1 2 0)).toList = 0x5A :: counting 0x10 12 ++ [0x00, 0x00, 0x18] := by decide

theorem test_macB0_goes_to_the_aad : (after (exec .macB0 (s1At 1 2 0))).w.phase = 3 := by decide

/-- FA_BLOCK(0) and FA_BLOCK(1) of S1. -/
theorem test_macAad_blocks :
    (faBlock s1 0).toList = [0x00, 0x14] ++ counting 0 14 ∧
      (faBlock s1 1).toList = counting 14 6 ++ List.replicate 10 0 := by decide

theorem test_macAad_advances :
    (after (exec .macAad (s1At 1 3 0))).w.idx = 1 ∧ (after (exec .macAad (s1At 1 3 1))).w.phase = 4 := by decide

/-- PP_BLOCK(DIN, 1) of S1. -/
theorem test_macPay_block :
    (ppBlock s1 .din 1).toList = counting 0x30 8 ++ List.replicate 8 0 ∧ paySource (s1At 1 4 0) = .din ∧
      paySource (s1At 2 4 0) = .dout := by decide

theorem test_macPay_ends_after_the_last_block : (after (exec .macPay (s1At 1 4 1))).w.phase = 5 := by decide

/-- The MAC register of S1 before MAC_FINAL, and T. -/
def s1Mac : Block := register 16
  [0x67, 0xC9, 0x92, 0x40, 0xC7, 0xD5, 0x10, 0x48, 0xB4, 0xC9, 0xBC, 0xEC, 0x10, 0xAE, 0x02, 0x15]

theorem test_macFinal_truncates :
    (after (exec .macFinal { s1At 1 5 0 with w := { (s1At 1 5 0).w with x := s1Mac } })).w.t.toList =
      [0x67, 0xC9, 0x92, 0x40, 0xC7, 0xD5, 0x10, 0x48, 0, 0, 0, 0, 0, 0, 0, 0] := by decide

theorem test_ksS0_input :
    (ctrInput (s1At 1 6 0) 0).toList = 0x02 :: counting 0x10 12 ++ [0x00, 0x00, 0x00] ∧
      (after (exec .ksS0 (s1At 1 6 0))).w.idx = 1 := by decide

/-- KS_BLK of the last block handles c = 8 bytes at offset 16 and leaves the keystream. -/
theorem test_ksBlk_last_block :
    ksOffset (s1At 1 7 2) = 16 ∧ ksCount (s1At 1 7 2) = 8 ∧ (after (exec .ksBlk (s1At 1 7 2))).w.phase = 8 ∧
      (after (exec .ksBlk (s1At 2 7 2))).w.phase = 2 := by decide

theorem test_ksBlk_output :
    stored (after (exec .ksBlk (s1At 1 7 2))) .dout 16 =
      some (0x30 ^^^ byteAt (Config.ciph (keyBytes s1) (ctrInput (s1At 1 7 2) 2)) 0) ∧
    stored (after (exec .ksBlk (s1At 1 7 2))) .dout 24 = none := ⟨rfl, rfl⟩

/-- TAG_MASK of S1: T ⊕ S0 in the first 8 bytes. -/
theorem test_tagMask :
    (after (exec .tagMask { s1At 1 8 0 with w := { (s1At 1 8 0).w with
        t := keepBytes 8 s1Mac
        s0 := register 16 [0x2F, 0x8A, 0x00, 0xBB, 0x06, 0x65, 0x89, 0x19, 0xC3, 0xA0, 0x40, 0xA6, 0xEA, 0xED, 0x1A, 0x7F] }})).regs.tagOut.toList =
      [0x48, 0x43, 0x92, 0xFB, 0xC1, 0xB0, 0x99, 0x51, 0, 0, 0, 0, 0, 0, 0, 0] := by decide

/-- V-CMP: byte 7 differs; and bytes at and beyond M are ignored. -/
theorem test_ctCompare :
    tagDiff 8 (register 16 [0x48, 0x43, 0x92, 0xFB, 0xC1, 0xB0, 0x99, 0x51])
      (register 16 [0x48, 0x43, 0x92, 0xFB, 0xC1, 0xB0, 0x99, 0x50]) = 0x01 ∧
    tagDiff 4 (register 16 [0x4D, 0xAC, 0x25, 0x5D])
      (register 16 [0x4D, 0xAC, 0x25, 0x5D, 0xFF, 0xFF, 0xFF, 0xFF]) = 0x00 := by decide

/-- V-STATUS: a DECRYPT whose tags agree, one whose tags differ, and an ENCRYPT. -/
theorem test_fin :
    (after (exec .fin { s1At 2 0xA 0 with w := { (s1At 2 0xA 0).w with aok := true } })).regs.status.byte = 0x06 ∧
      (after (exec .fin (s1At 2 0xA 0))).regs.status.byte = 0x02 ∧
      (after (exec .fin { s1At 1 0xA 0 with w := { (s1At 1 0xA 0).w with aok := true } })).regs.status.byte = 0x02 := by decide

theorem test_errfin :
    (after (exec .errfin { s1At 1 0xB 0 with w := { (s1At 1 0xB 0).w with ecode := 1, ecause := 3 } })).regs.err.byte = 0x31 ∧
      (after (exec .errfin (s1At 1 0xB 0))).w = Work.clear := by decide

theorem test_phaseRsvd : exec (.phaseRsvd 1) s1 = .fault .reservedPhase := rfl

/-- R72: key byte 0 and block byte 0 in the most significant lanes, a 16-byte key's low lanes zero. -/
theorem test_port_packing :
    (requestFor s1 (macB0Input (s1At 1 2 0))).key = 0x404142434445464748494a4b4c4d4e4f00000000000000000000000000000000 ∧
      (requestFor s1 (macB0Input (s1At 1 2 0))).block = 0x5a101112131415161718191a1b000018 := by decide

/-- V-SEQ: S1 takes 12 micro-operations as ENCRYPT and 13 as DECRYPT. -/
theorem test_steps_left : stepsLeft (s1At 1 1 0) = 12 ∧ stepsLeft (s1At 2 1 0) = 13 := by decide

/-! ### Witnesses: for each obligation with hypotheses, states and operands that meet them together -/

theorem s1_canonical : s1.buf.canonical := ⟨by decide, by decide, by decide⟩

theorem s1_within : Buffers.within s1 := fun b => by cases b <;> decide

theorem no_error : Regs.reset.err ∈ errValues := by decide

/-- S1 between commands has the invariant. -/
theorem s1_sound (host : List (BitVec 75)) (turns : List Turn) : Sound (withPlan s1 host turns) :=
  Sound.of_idle rfl rfl rfl no_error nofun s1_canonical s1_within

/-- The short message has the invariant. -/
theorem short_sound (host : List (BitVec 75)) (turns : List Turn) : Sound (withPlan short host turns) :=
  Sound.of_idle rfl rfl rfl no_error nofun s1_canonical s1_within

theorem s1_legal : Legal s1 := ⟨by decide, by decide, by decide, by decide, by decide, by decide⟩

theorem short_legal : Legal short := ⟨by decide, by decide, by decide, by decide, by decide, by decide⟩

/-- The state right after a command is accepted, with these turns to come. -/
theorem s1_running_sound (v : Byte) (turns : List Turn) : Sound (acceptCommand (withTurns s1 turns) v) :=
  (s1_sound [] turns).acceptCommand rfl v

theorem witness_DecodeOfEncode :
    (Instr.regWr 0x02 0xFF).wellFormed = true ∧ (Instr.cmdRsvd 0x03).wellFormed = true ∧ Instr.errfin.wellFormed = true := by
  decide

/-- Each clause at the ends of its range: DATA 3 and 255 of a reserved command, offsets 2 and 2^64 − 1 of REG_WR. -/
theorem witness_TransactionDecodesByItsFields :
    (0 : BitVec 64).toNat = 0 ∧ 3 ≤ (3 : Byte).toNat ∧ 3 ≤ (255 : Byte).toNat ∧ (1 : BitVec 64).toNat = 1 ∧
      2 ≤ (2 : BitVec 64).toNat ∧ 2 ≤ (0xFFFFFFFFFFFFFFFF : BitVec 64).toNat := by decide

theorem witness_StepRunsTheDecodedTransaction :
    (withPlan s1 [encodeHtx .encrypt] [.host]).env.turns = .host :: [] ∧
      (withPlan s1 [encodeHtx .encrypt] [.host]).env.host = encodeHtx .encrypt :: [] ∧
      Instr.encrypt.wellFormed = true ∧ Instr.encrypt.isHost = true ∧ (withPlan s1 [] [.host]).env.host = [] := by decide

theorem witness_StepRunsTheMicroOperation :
    (withTurns (s1At 1 5 0) [.engine]).env.turns = .engine :: [] ∧
      (withTurns (s1At 1 5 0) [.engine]).regs.status.busy = true ∧
      (withTurns s1 [.engine]).regs.status.busy = false := by decide

theorem witness_UnplannedTurnIsDrawn : State.reset.env.turns = [] := rfl

/-- A busy engine in each of the five phases that call the cipher and in one beside them, and an idle one. -/
theorem witness_WaitingLeavesOnlyTheRequest :
    (withTurns (s1At 1 2 0) [.wait]).env.turns = .wait :: [] ∧
      ([2, 3, 4, 6, 7, 5].map fun c => ((s1At 1 c 1).regs.status.busy, (s1At 1 c 1).w.phase)) =
        [(true, 0x2), (true, 0x3), (true, 0x4), (true, 0x6), (true, 0x7), (true, 0x5)] ∧
      (withTurns s1 [.wait]).regs.status.busy = false := by decide

theorem witness_ResetLeavesTheResetValues :
    ∃ t, (withTurns (s1At 1 4 0) [.reset]).env.turns = .reset :: [] ∧ step (withTurns (s1At 1 4 0) [.reset]) = .next t :=
  ⟨_, rfl, rfl⟩

theorem witness_ResetIsOneStepFromEveryState : (withTurns (s1At 1 4 0) [.reset]).env.turns = .reset :: [] := rfl

theorem witness_LengthRegistersAreBigEndian : 0 < 8 ∧ 7 < 8 := by decide

theorem witness_RegisterWriteStoresOneByte :
    2 ≤ (2 : BitVec 64).toNat ∧ 2 ≤ (0x3F : BitVec 64).toNat ∧ s1.regs.status.busy = false ∧
      readWriteOffset 0x03 = true ∧ readWriteOffset 0x5F = true := by decide

/-- Each clause at the ends of its range of offsets. -/
theorem witness_RegisterReadReturnsTheMappedByte :
    (0x08 : BitVec 64).toNat = 0x08 + 0 ∧ (0x0F : BitVec 64).toNat = 0x08 + 7 ∧ (0x10 : BitVec 64).toNat = 0x10 + 0 ∧
      (0x17 : BitVec 64).toNat = 0x10 + 7 ∧ (0x20 : BitVec 64).toNat = 0x20 + 0 ∧ (0x3F : BitVec 64).toNat = 0x20 + 31 ∧
      (0x40 : BitVec 64).toNat = 0x40 + 0 ∧ (0x4C : BitVec 64).toNat = 0x40 + 12 ∧ (0x50 : BitVec 64).toNat = 0x50 + 0 ∧
      (0x5F : BitVec 64).toNat = 0x50 + 15 ∧ (0x60 : BitVec 64).toNat = 0x60 + 0 ∧ (0x6F : BitVec 64).toNat = 0x60 + 15 ∧
      s1.regs.status.busy = false ∧
      [0x06, 0x07, 0x18, 0x1F, 0x4D, 0x4F, 0x70, 2 ^ 64 - 1].map reservedOffset = List.replicate 8 true ∧
      [0x05, 0x08, 0x17, 0x20, 0x4C, 0x50, 0x5F, 0x60, 0x6F].map reservedOffset = List.replicate 9 false := by decide

theorem witness_KeyCannotBeReadBack : isRead (.regRd 0x20) = true ∧ isRead (.doutRd 0) = true := by decide

theorem witness_BusyEngineIgnoresWrites :
    isGatedWrite .cmdNop = true ∧ isGatedWrite (.regWr 0x20 0) = true ∧ (s1At 1 4 0).regs.status.busy = true := by decide

theorem witness_CommandAcceptance : s1.regs.status.busy = false ∧ 3 ≤ (0x03 : Byte).toNat ∧ 3 ≤ (0xFF : Byte).toNat := by
  decide

theorem witness_NopAndDoutWriteChangeNothing :
    s1.regs.status.busy = false ∧ (s1At 1 4 0).regs.status.busy = true := ⟨rfl, rfl⟩

/-- An offset just below the capacity and one at it. -/
theorem witness_BufferWriteStoresOneByte :
    s1.regs.status.busy = false ∧ (63 : BitVec 64).toNat < s1.capOf .aad ∧ ¬(64 : BitVec 64).toNat < s1.capOf .din := by
  decide

theorem witness_BufferReadReturnsTheStoredByte :
    s1.regs.status.busy = false ∧ s1.capOf .din ≤ (64 : BitVec 64).toNat ∧
      (23 : BitVec 64).toNat < s1.capOf .din ∧ stored s1 .din (23 : BitVec 64).toNat = some 0x37 := by decide

theorem witness_BufferReadAfterWrite :
    s1.regs.status.busy = false ∧ (63 : BitVec 64).toNat < s1.capOf .aad ∧ (63 : BitVec 64).toNat < s1.capOf .din := by decide

theorem witness_BigEndianEncoding : 65535 < 2 ^ (8 * 2) ∧ 1 < 2 := by decide

/-- At both ends of the nonce's length. -/
theorem witness_InitialBlockLayout :
    (counting 0x10 7).length + 8 = 15 ∧ (counting 0x10 13).length + 2 = 15 ∧ 16 ∈ [4, 6, 8, 10, 12, 14, 16] ∧
      2 ^ 64 - 1 < 2 ^ (8 * 8) ∧ 65535 < 2 ^ (8 * 2) := by decide

theorem witness_CounterBlockLayout :
    (counting 0x10 13).length + 2 = 15 ∧ 65535 < 2 ^ (8 * 2) ∧ 0x1000 ≤ payBlocks 65535 ∧
      fmtCtr (counting 0x10 13) 2 1 = fmtCtr (counting 0x10 13) 2 1 := by decide

/-- The ranges' ends: 0, 1, 65279, 65280, 2^32 − 1, 2^32, 2^64 − 1. -/
theorem witness_AadLengthHeader :
    0 < 65279 ∧ 65279 < 65280 ∧ 65280 ≤ 2 ^ 32 - 1 ∧ 2 ^ 32 - 1 < 2 ^ 32 ∧ 2 ^ 32 ≤ 2 ^ 64 - 1 ∧ 2 ^ 64 - 1 < 2 ^ 64 := by
  decide

theorem witness_FormattedAadBlocks : 0 < aadLen short := by decide

theorem witness_CheckPassesLegalParameters :
    Legal (s1At 1 1 0) ∧ (s1At 1 1 0).w.op = 0x01 ∧ Legal (s1At 2 1 0) ∧ (s1At 2 1 0).w.op = 0x02 :=
  ⟨⟨by decide, by decide, by decide, by decide, by decide, by decide⟩, rfl,
    ⟨by decide, by decide, by decide, by decide, by decide, by decide⟩, rfl⟩

/-- The seven clauses' premises, each just outside its check (V-CHK). -/
theorem witness_CheckReportsTheFirstFailure :
    ¬((s1At 3 1 0).w.op = 0x01 ∨ (s1At 3 1 0).w.op = 0x02) ∧
      ((s1At 1 1 0).w.op = 0x01 ∧ s1.regs.keyLen.toNat = 16 ∧ (7 ≤ s1.regs.nLen.toNat ∧ s1.regs.nLen.toNat ≤ 13) ∧
        (4 ≤ s1.regs.tLen.toNat ∧ s1.regs.tLen.toNat ≤ 16 ∧ s1.regs.tLen.toNat % 2 = 0) ∧
        s1.regs.pLen.toNat < 2 ^ (8 * (15 - s1.regs.nLen.toNat)) ∧ s1.regs.aLen.toNat ≤ s1.caps.aad.toNat) ∧
      ¬((20 : Byte).toNat = 16 ∨ (20 : Byte).toNat = 24 ∨ (20 : Byte).toNat = 32) ∧
      ¬(7 ≤ (6 : Byte).toNat ∧ (6 : Byte).toNat ≤ 13) ∧ ¬(7 ≤ (14 : Byte).toNat ∧ (14 : Byte).toNat ≤ 13) ∧
      ¬(4 ≤ (2 : Byte).toNat) ∧ ¬((18 : Byte).toNat ≤ 16) ∧ ¬((5 : Byte).toNat % 2 = 0) ∧
      ¬((65536 : BitVec 64).toNat < 2 ^ (8 * (15 - 13))) ∧ ¬((65 : BitVec 64).toNat ≤ s1.caps.aad.toNat) ∧
      ¬((65 : BitVec 64).toNat ≤ s1.caps.data.toNat) := by decide

theorem witness_TagMasking : (s1At 1 8 0).w.op = 0x01 ∧ (s1At 2 8 0).w.op ≠ 0x01 := by decide

theorem witness_ReservedPhaseIsStuck : 0xC ≤ (0xC : BitVec 4).toNat ∧ 0xC ≤ (0xF : BitVec 4).toNat := by decide

theorem witness_StepKeepsTheInvariant :
    ∃ s t, Sound s ∧ s.regs.status.busy = true ∧ step s = .next t :=
  ⟨_, _, s1_running_sound 1 [.engine], rfl, rfl⟩

theorem witness_StepKeepsBuffersCanonical :
    ∃ t, (withTurns (s1At 1 7 2) [.engine]).buf.canonical ∧ step (withTurns (s1At 1 7 2) [.engine]) = .next t :=
  ⟨_, ⟨by decide, by decide, by decide⟩, rfl⟩

theorem witness_SoundStateNeverStops : Sound (acceptCommand (withTurns s1 [.engine]) 2) := s1_running_sound 2 [.engine]

theorem witness_OnlyCompletionClearsBusy :
    ∃ t, (withTurns (s1At 1 0xA 0) [.engine]).env.turns = .engine :: [] ∧ step (withTurns (s1At 1 0xA 0) [.engine]) = .next t ∧
      (withTurns (s1At 1 0xA 0) [.engine]).regs.status.busy = true ∧ t.regs.status.busy = false :=
  ⟨_, rfl, rfl, rfl, rfl⟩

/-- FIN of a DECRYPT whose tags agree. -/
def agreeing : State := { s1At 2 0xA 0 with w := { (s1At 2 0xA 0).w with aok := true } }

theorem witness_AuthokOnlyFromFin :
    ∃ t, (withTurns agreeing [.engine]).env.turns = .engine :: [] ∧ step (withTurns agreeing [.engine]) = .next t ∧
      (withTurns agreeing [.engine]).regs.status.authok = false ∧ t.regs.status.authok = true :=
  ⟨_, rfl, rfl, rfl, rfl⟩

theorem witness_InputsFrozenWhileBusy :
    ∃ t, (withPlan (s1At 1 4 0) [encodeHtx (.dinWr 0 0xFF)] [.host]).env.turns = .host :: [] ∧ Turn.host ≠ .reset ∧ Turn.host ≠ .engine ∧
      step (withPlan (s1At 1 4 0) [encodeHtx (.dinWr 0 0xFF)] [.host]) = .next t ∧ (s1At 1 4 0).regs.status.busy = true :=
  ⟨_, rfl, nofun, nofun, rfl, rfl⟩

/-- TAG_MASK of an ENCRYPT with a nonzero tag changes TAGOUT; KS_BLK changes DOUT. -/
theorem witness_OutputsWrittenOnlyByTheirStep :
    (after (step (withTurns { s1At 1 8 0 with w := { (s1At 1 8 0).w with t := s1Mac } } [.engine]))).regs.tagOut ≠ s1.regs.tagOut ∧
      (after (step (withTurns (s1At 1 7 2) [.engine]))).buf.dout ≠ s1.buf.dout :=
  ⟨by decide, nofun⟩

theorem witness_SequenceIsDataIndependent :
    ∃ s', exec (decodePhase 7) (s1At 1 7 2) = .next s' ∧
      (s1At 1 7 2).regs.key ≠ register 32 [] ∧
      (s1At 1 7 2).caps = { s1At 1 7 2 with regs := { (s1At 1 7 2).regs with key := register 32 [] } }.caps :=
  ⟨_, rfl, by decide, rfl⟩

/-- A reserved command just accepted, whose planned turns end with its completion: the HOST's turn first, then the
ENGINE's two. -/
def ending : State := acceptCommand (withTurns s1 [.host, .engine, .engine]) 0x03

theorem ending_weaklyFair : WeaklyFair ending := WeaklyFair.of_quiet (n := 3) rfl ⟨rfl, rfl, rfl⟩

/-- An ENCRYPT of the short message just accepted, with waits for the CIPHER in MAC_B0 and KS_S0. -/
def waiting : State :=
  acceptCommand (withTurns short ([.engine, .wait, .wait] ++ List.replicate 4 .engine ++ [.wait] ++ List.replicate 4 .engine)) 0x01

theorem waiting_weaklyFair : WeaklyFair waiting := WeaklyFair.of_quiet (n := 12) rfl ⟨rfl, rfl, rfl⟩

theorem witness_EngineTurnsReachCompletion :
    (∃ s t, Sound s ∧ s.env.turns = .engine :: [] ∧ step s = .next t ∧ s.regs.status.busy = true) ∧
      (Sound ending ∧ ending.regs.status.busy = true ∧ WeaklyFair ending) ∧
      (Sound waiting ∧ waiting.regs.status.busy = true ∧ WeaklyFair waiting) :=
  ⟨⟨_, _, s1_running_sound 1 [.engine], rfl, rfl, rfl⟩, ⟨s1_running_sound 0x03 _, rfl, ending_weaklyFair⟩,
    ⟨(short_sound [] _).acceptCommand rfl 0x01, rfl, waiting_weaklyFair⟩⟩

theorem witness_RejectedCommandLeavesNoResult :
    ∃ s : State, Sound s ∧ s.regs.status.busy = false ∧ s.env.host = encodeHtx (.cmdRsvd 0x03) :: [] ∧
      s.env.turns = .host :: .engine :: .engine :: [] ∧ 3 ≤ (0x03 : Byte).toNat ∧
      checkFailure { s with w := { s.w with op := 0x03 } } = some (1, 1) :=
  ⟨_, s1_sound [encodeHtx (.cmdRsvd 0x03)] [.host, .engine, .engine], rfl, rfl, rfl, by decide, by decide⟩

theorem witness_CommandAfterResetFails : Instr.encrypt = .encrypt ∨ Instr.encrypt = .decrypt := .inl rfl

theorem witness_EncryptSequence :
    ∃ s ts, Sound s ∧ s.w.phase = 0x1 ∧ s.w.op = 0x01 ∧ Legal s ∧
      s.env.turns = List.replicate (6 + nA s + 2 * nP s) .engine ++ ts :=
  ⟨_, [], s1_running_sound 0x01 (List.replicate 12 .engine), rfl, rfl,
    ⟨by decide, by decide, by decide, by decide, by decide, by decide⟩, by decide⟩

theorem witness_DecryptSequence :
    ∃ s ts, Sound s ∧ s.w.phase = 0x1 ∧ s.w.op = 0x02 ∧ Legal s ∧
      s.env.turns = List.replicate (7 + nA s + 2 * nP s) .engine ++ ts :=
  ⟨_, [], s1_running_sound 0x02 (List.replicate 13 .engine), rfl, rfl,
    ⟨by decide, by decide, by decide, by decide, by decide, by decide⟩, by decide⟩

theorem witness_EncryptComputesCcm :
    ∃ s : State, Sound s ∧ s.regs.status.busy = false ∧ Legal s ∧ s.env.host = encodeHtx .encrypt :: [] ∧
      s.env.turns = .host :: (List.replicate (6 + nA s + 2 * nP s) .engine ++ []) :=
  ⟨_, s1_sound [encodeHtx .encrypt] (.host :: List.replicate 12 .engine), rfl,
    ⟨by decide, by decide, by decide, by decide, by decide, by decide⟩, rfl, by decide⟩

theorem witness_DecryptComputesCcm :
    ∃ s : State, Sound s ∧ s.regs.status.busy = false ∧ Legal s ∧ s.env.host = encodeHtx .decrypt :: [] ∧
      s.env.turns = .host :: (List.replicate (7 + nA s + 2 * nP s) .engine ++ []) :=
  ⟨_, s1_sound [encodeHtx .decrypt] (.host :: List.replicate 13 .engine), rfl,
    ⟨by decide, by decide, by decide, by decide, by decide, by decide⟩, rfl, by decide⟩

/-- The short message about to be encrypted, what that leaves, and the DECRYPT of it. -/
def toEncrypt : State := withPlan short [encodeHtx .encrypt] (.host :: List.replicate 9 .engine)

def encrypted : State := after (Sys2Proof.core.run 10 toEncrypt)

def toDecrypt : State :=
  { withPlan short [encodeHtx .decrypt] (.host :: List.replicate 10 .engine) with
    regs := { short.regs with tagIn := encrypted.regs.tagOut }
    buf := { short.buf with din := [(0, content encrypted .dout 0)] } }

theorem toDecrypt_sound : Sound toDecrypt := by
  refine Sound.of_idle rfl rfl rfl (by decide) nofun ⟨by decide, List.pairwise_singleton _ _, by decide⟩ fun b => ?_
  cases b with
  | aad => decide
  | din => intro c hc; rw [List.mem_singleton.mp hc]; decide
  | dout => decide

theorem witness_DecryptOfEncryptAuthenticates :
    Sound toEncrypt ∧ toEncrypt.regs.status.busy = false ∧ Legal toEncrypt ∧
      toEncrypt.env.host = encodeHtx .encrypt :: [] ∧
      toEncrypt.env.turns = .host :: (List.replicate (6 + nA toEncrypt + 2 * nP toEncrypt) .engine ++ []) ∧
      Sys2Proof.core.run (7 + nA toEncrypt + 2 * nP toEncrypt) toEncrypt = .next encrypted ∧
      Sound toDecrypt ∧ toDecrypt.regs.status.busy = false ∧ toDecrypt.caps = toEncrypt.caps ∧
      toDecrypt.regs.keyLen = toEncrypt.regs.keyLen ∧ toDecrypt.regs.key = toEncrypt.regs.key ∧
      toDecrypt.regs.nLen = toEncrypt.regs.nLen ∧ toDecrypt.regs.nonce = toEncrypt.regs.nonce ∧
      toDecrypt.regs.tLen = toEncrypt.regs.tLen ∧ toDecrypt.regs.aLen = toEncrypt.regs.aLen ∧
      toDecrypt.regs.pLen = toEncrypt.regs.pLen ∧
      (∀ a, a < aadLen toEncrypt → content toDecrypt .aad a = content toEncrypt .aad a) ∧
      (∀ a, a < payLen toEncrypt → content toDecrypt .din a = content encrypted .dout a) ∧
      (∀ j, j < toEncrypt.regs.tLen.toNat → byteAt toDecrypt.regs.tagIn j = byteAt encrypted.regs.tagOut j) ∧
      toDecrypt.env.host = encodeHtx .decrypt :: [] ∧
      toDecrypt.env.turns = .host :: (List.replicate (7 + nA toEncrypt + 2 * nP toEncrypt) .engine ++ []) := by
  refine ⟨short_sound _ _, rfl, ⟨by decide, by decide, by decide, by decide, by decide, by decide⟩, rfl, by decide, rfl,
    toDecrypt_sound, rfl, rfl, rfl, rfl, rfl, rfl, rfl, rfl, rfl, fun _ _ => rfl, fun a ha => ?_, fun _ _ => rfl, rfl,
    by decide⟩
  obtain rfl : a = 0 := Nat.lt_one_iff.mp ha
  rfl

/-- Two commands that agree in their inputs and differ in the unused key bytes and in TAGOUT. -/
def otherwise : State :=
  { toEncrypt with regs := { toEncrypt.regs with
      key := register 32 (counting 0x40 16 ++ counting 0xA0 16), tagOut := register 16 (counting 1 16) } }

theorem otherwise_sound : Sound otherwise := Sound.of_idle rfl rfl rfl no_error nofun s1_canonical s1_within

theorem witness_ResultsDependOnlyOnTheInputs :
    ∃ t t₂, 9 = 6 + nA toEncrypt + 2 * nP toEncrypt ∧ Sound toEncrypt ∧ Sound otherwise ∧
      toEncrypt.regs.status.busy = false ∧ otherwise.regs.status.busy = false ∧ Legal toEncrypt ∧
      toEncrypt.env.host = encodeHtx .encrypt :: [] ∧ otherwise.env.host = encodeHtx .encrypt :: [] ∧
      toEncrypt.env.turns = .host :: (List.replicate 9 .engine ++ []) ∧
      otherwise.env.turns = .host :: (List.replicate 9 .engine ++ []) ∧ otherwise.caps = toEncrypt.caps ∧
      keyBytes otherwise = keyBytes toEncrypt ∧ nonceBytes otherwise = nonceBytes toEncrypt ∧
      otherwise.regs.key ≠ toEncrypt.regs.key ∧ otherwise.buf = toEncrypt.buf ∧
      Sys2Proof.core.run (9 + 1) toEncrypt = .next t ∧ Sys2Proof.core.run (9 + 1) otherwise = .next t₂ :=
  ⟨_, _, by decide, short_sound _ _, otherwise_sound, rfl, rfl,
    ⟨by decide, by decide, by decide, by decide, by decide, by decide⟩, rfl, rfl, rfl, rfl, rfl, by decide, by decide,
    by decide, rfl, rfl, rfl⟩

end Sys2Proof.Tests
end

section
/-! PROOFS. The big-endian encoding of a number and its inverse (R12 of spec/00_scope.md). -/

namespace Sys2Proof.Machine

@[simp] theorem packBytes_nil : packBytes [] = 0 := rfl

/-- A byte on the right of a byte string is the new least significant digit of its value. -/
theorem packBytes_concat (l : List Byte) (b : Byte) : packBytes (l ++ [b]) = packBytes l * 256 + b.toNat := by
  simp [packBytes]

@[simp] theorem be_zero (v : Nat) : be 0 v = [] := rfl

/-- The last byte of `be_(k+1)(v)` is the remainder of `v` by 256, the bytes before it encode the quotient. -/
theorem be_succ (k v : Nat) : be (k + 1) v = be k (v / 256) ++ [BitVec.ofNat 8 v] := by
  have shift : ∀ j < k, v >>> (8 * (k - j)) = (v / 256) >>> (8 * (k - 1 - j)) := by
    intro j hj
    have hdist : 8 * (k - j) = 8 + 8 * (k - 1 - j) := by omega
    rw [hdist, Nat.shiftRight_add, Nat.shiftRight_eq_div_pow v 8]
  simpa [be, List.range_succ] using fun j hj => congrArg (BitVec.ofNat 8) (shift j hj)

/-- The value of `be_k(v)` is `v` in `k` bytes; digit by digit from the right. -/
theorem packBytes_be (k v : Nat) : packBytes (be k v) = v % 2 ^ (8 * k) := by
  induction k generalizing v with
  | zero => simp [Nat.mod_one]
  | succ k ih =>
    calc packBytes (be (k + 1) v)
        = v / 256 % 2 ^ (8 * k) * 256 + v % 256 := by simp [be_succ, packBytes_concat, ih]
      _ = v % (256 * 2 ^ (8 * k)) := by rw [Nat.mod_mul]; omega
      _ = v % 2 ^ (8 * (k + 1)) := by rw [Nat.mul_succ, Nat.pow_add']

/-- On the numbers that `k` bytes can hold, the encoding loses nothing. -/
theorem packBytes_be_of_lt {k v : Nat} (h : v < 2 ^ (8 * k)) : packBytes (be k v) = v := by
  rw [packBytes_be, Nat.mod_eq_of_lt h]

/-- Settles O23: the value of an encoding by recursion on its length, and the rounding by `16 * ceil16 x = x + pad16 x`. -/
theorem bigEndianEncoding : Obligations.BigEndianEncoding := by
  constructor
  · intro k v hv
    refine ⟨be_length k v, packBytes_be_of_lt hv, fun j hj => ?_⟩
    rw [be_getD k v hj, Nat.shiftRight_eq_div_pow]
  · intro x
    have hround := sixteen_mul_ceil16 x
    have hpad := pad16_lt x
    exact ⟨by omega, by omega, hpad, by omega⟩

end Sys2Proof.Machine
end

section
/-! PROOFS. Everything a micro-operation and a turn can do, said once for all of them. -/

namespace Sys2Proof.Machine

/-! ### Where a micro-operation leads -/

/-- The sequencer stands at a micro-operation after CHECK that may run now: its block index is in range (R45), and
CT_COMPARE is not reached in an ENCRYPT (R110). -/
structure Ready (t : State) : Prop where
  phase_range : 2 ≤ t.w.phase.toNat ∧ t.w.phase.toNat ≤ 0xA
  compare : t.w.phase = 9 → isEncrypt t = false
  aad_index : t.w.phase = 3 → t.w.idx.toNat < nA t
  pay_index : t.w.phase = 4 → t.w.idx.toNat < nP t
  ks_index : t.w.phase = 7 → 1 ≤ t.w.idx.toNat ∧ t.w.idx.toNat ≤ nP t

theorem Ready.enter (s : State) {p : BitVec 4} (hp : p ∈ [2, 5, 6, 8, 0xA]) : Ready (enter s p) := by
  simp only [List.mem_cons, List.not_mem_nil, or_false] at hp
  obtain rfl | rfl | rfl | rfl | rfl := hp <;> constructor <;> simp

theorem Ready.enter_compare {s : State} (h : isEncrypt s = false) : Ready (Machine.enter s 9) := by
  constructor <;> simp
  exact h

theorem Ready.enterAt_aad {s : State} {k : BitVec 64} (h : k.toNat < nA s) : Ready (enterAt s k 3) := by
  constructor <;> simp
  exact h

theorem Ready.enterAt_pay {s : State} {k : BitVec 64} (h : k.toNat < nP s) : Ready (enterAt s k 4) := by
  constructor <;> simp
  exact h

theorem Ready.enterAt_ks {s : State} {k : BitVec 64} (h : 1 ≤ k.toNat ∧ k.toNat ≤ nP s) : Ready (enterAt s k 7) := by
  constructor <;> simp
  exact h

theorem Ready.enterPayload (s : State) : Ready (enterPayload s) := by
  unfold Machine.enterPayload
  split
  · exact .enterAt_pay ‹_›
  · exact .enter s (by decide)

theorem Ready.leaveKeystream (s : State) : Ready (leaveKeystream s) :=
  .enter s (by cases isEncrypt s <;> decide)

/-- A block index that moves on stays in front of its bound: the 64-bit addition cannot grow past it. -/
theorem toNat_succ_lt {k : BitVec 64} {n : Nat} (h : k.toNat + 1 < n) : (k + 1).toNat < n := by
  rw [BitVec.toNat_add]
  exact Nat.lt_of_le_of_lt (Nat.mod_le _ _) h

theorem nP_le (s : State) : nP s ≤ 2 ^ 60 := by
  have := s.regs.pLen.isLt
  unfold nP payBlocks ceil16 payLen
  omega

/-- The index of a keystream block moves on without wrapping. -/
theorem ks_index_succ {s : State} (h : s.w.idx.toNat < nP s) :
    1 ≤ (s.w.idx + 1).toNat ∧ (s.w.idx + 1).toNat ≤ nP s := by
  have := nP_le s
  have hsucc : (s.w.idx + 1).toNat = s.w.idx.toNat + 1 := by
    rw [BitVec.toNat_add]
    exact Nat.mod_eq_of_lt (by simp; omega)
  omega

/-! ### What a micro-operation after CHECK changes -/

/-- The frame of a micro-operation between CHECK and FIN: of the registers only TAGOUT, of the buffers only DOUT, the
port to no request, of the working registers not W.OP, W.L and W.M. -/
structure Works (s t : State) : Prop where
  regs : t.regs = { s.regs with tagOut := t.regs.tagOut }
  tagOut : t.regs.tagOut ≠ s.regs.tagOut → s.w.phase = 8 ∧ isEncrypt s = true
  buf : t.buf = if s.w.phase = 7 then (memWrite (answered s) .dout (ksOffset s) (ksBytes s)).buf else s.buf
  port : t.port = if cipherInput s = none then s.port else none
  caps : t.caps = s.caps
  env : t.env = s.env
  op : t.w.op = s.w.op
  l : t.w.l = s.w.l
  m : t.w.m = s.w.m

/-- A micro-operation's work and the phase that follows it. -/
inductive EngineEffect (s : State) : State → Prop
  /-- IDLE (R192). -/
  | idle : s.w.phase = 0 → EngineEffect s s
  /-- CHECK finds a failure (R195). -/
  | reject (code : BitVec 2) (cause : BitVec 3) :
      s.w.phase = 1 → checkFailure s = some (code, cause) → EngineEffect s (failCheck s code cause)
  /-- CHECK finds none (R195). -/
  | begin : s.w.phase = 1 → checkFailure s = none → EngineEffect s (beginCommand s)
  /-- The micro-operations 0x2 to 0x9. -/
  | work {t : State} : 2 ≤ s.w.phase.toNat → s.w.phase.toNat ≤ 9 → Works s t → Ready t → EngineEffect s t
  /-- FIN (R204). -/
  | fin : s.w.phase = 0xA → EngineEffect s (complete s s.regs.err (s.w.op.toNat = 2 && s.w.aok))
  /-- ERRFIN (R203). -/
  | errfin : s.w.phase = 0xB → EngineEffect s (complete s { code := s.w.ecode, cause := s.w.ecause } false)

variable {s t : State}

/-! ### What each phase sends to the cipher (R22) -/

theorem cipherInput_macB0 (h : s.w.phase = 2) : cipherInput s = some (macB0Input s) := by simp [cipherInput, h]

theorem cipherInput_macAad (h : s.w.phase = 3) : cipherInput s = some (macAadInput s) := by simp [cipherInput, h]

theorem cipherInput_macPay (h : s.w.phase = 4) : cipherInput s = some (macPayInput s) := by simp [cipherInput, h]

theorem cipherInput_ksS0 (h : s.w.phase = 6) : cipherInput s = some (ctrInput s 0) := by simp [cipherInput, h]

theorem cipherInput_ksBlk (h : s.w.phase = 7) : cipherInput s = some (ctrInput s s.w.idx.toNat) := by
  simp [cipherInput, h]

/-- The phases that send nothing (R22). -/
theorem cipherInput_eq_none (h2 : s.w.phase ≠ 2) (h3 : s.w.phase ≠ 3) (h4 : s.w.phase ≠ 4) (h6 : s.w.phase ≠ 6)
    (h7 : s.w.phase ≠ 7) : cipherInput s = none := by
  unfold cipherInput
  split
  case h_1 h => exact absurd (BitVec.eq_of_toNat_eq h) h2
  case h_2 h => exact absurd (BitVec.eq_of_toNat_eq h) h3
  case h_3 h => exact absurd (BitVec.eq_of_toNat_eq h) h4
  case h_4 h => exact absurd (BitVec.eq_of_toNat_eq h) h6
  case h_5 h => exact absurd (BitVec.eq_of_toNat_eq h) h7
  case h_6 => rfl

/-! ### The micro-operations, one by one -/

/-- Moving the sequencer on is within the frame. -/
theorem Works.enter (h : Works s t) (p : BitVec 4) : Works s (enter t p) := { h with }

theorem Works.enterAt (h : Works s t) (k : BitVec 64) (p : BitVec 4) : Works s (enterAt t k p) := { h with }

theorem Works.enterPayload (h : Works s t) : Works s (enterPayload t) := by
  unfold Machine.enterPayload
  split
  · exact h.enterAt _ _
  · exact h.enter _

theorem Works.leaveKeystream (h : Works s t) : Works s (leaveKeystream t) := h.enter _

/-- The micro-operations 2, 3 and 4 set W.X to the cipher's answer. -/
theorem Works.setX (hx : cipherInput s ≠ none) (h7 : s.w.phase ≠ 7) (v : Block) : Works s (setX s v) := by
  constructor <;> simp [hx]
  exact fun hp => absurd hp h7

/-- A micro-operation that sends nothing and writes no output leaves the working registers to speak of. -/
theorem Works.working (hx : cipherInput s = none) (h7 : s.w.phase ≠ 7) (w : Work)
    (hw : w.op = s.w.op ∧ w.l = s.w.l ∧ w.m = s.w.m) : Works s { s with w := w } := by
  obtain ⟨hop, hl, hm⟩ := hw
  constructor <;> simp [hx, hop, hl, hm]
  exact fun hp => absurd hp h7

theorem execMacB0_effect (hp : s.w.phase = 2) (h : exec .macB0 s = .next t) : Works s t ∧ Ready t := by
  cases h
  have hw : Works s (setX s (cipher s (macB0Input s))) := .setX (by simp [cipherInput_macB0 hp]) (by simp [hp]) _
  split
  · exact ⟨hw.enterAt _ _, .enterAt_aad ‹_›⟩
  · exact ⟨hw.enterPayload, .enterPayload _⟩

theorem execMacAad_effect (hp : s.w.phase = 3) (h : exec .macAad s = .next t) : Works s t ∧ Ready t := by
  cases h
  have hw : Works s (setX s (cipher s (macAadInput s))) := .setX (by simp [cipherInput_macAad hp]) (by simp [hp]) _
  split
  · exact ⟨hw.enterAt _ _, .enterAt_aad (toNat_succ_lt ‹_›)⟩
  · exact ⟨hw.enterPayload, .enterPayload _⟩

theorem execMacPay_effect (hp : s.w.phase = 4) (h : exec .macPay s = .next t) : Works s t ∧ Ready t := by
  cases h
  have hw : Works s (setX s (cipher s (macPayInput s))) := .setX (by simp [cipherInput_macPay hp]) (by simp [hp]) _
  split
  · exact ⟨hw.enterAt _ _, .enterAt_pay (toNat_succ_lt ‹_›)⟩
  · exact ⟨hw.enter _, .enter _ (by decide)⟩

theorem execMacFinal_effect (hp : s.w.phase = 5) (h : exec .macFinal s = .next t) : Works s t ∧ Ready t := by
  cases h
  have hw : Works s { s with w := { s.w with t := keepBytes (tagLen s) s.w.x } } :=
    .working (by simp [cipherInput, hp]) (by simp [hp]) _ ⟨rfl, rfl, rfl⟩
  exact ⟨hw.enter _, .enter _ (by cases isEncrypt s <;> decide)⟩

theorem execKsS0_effect (hp : s.w.phase = 6) (h : exec .ksS0 s = .next t) : Works s t ∧ Ready t := by
  cases h
  have hw : Works s { answered s with w := { s.w with s0 := cipher s (ctrInput s 0) } } := by
    constructor <;> simp [cipherInput_ksS0 hp, hp]
  split
  · exact ⟨hw.enterAt _ _, .enterAt_ks ⟨by decide, ‹_›⟩⟩
  · exact ⟨hw.leaveKeystream, .leaveKeystream _⟩

theorem execKsBlk_effect (hp : s.w.phase = 7) (h : exec .ksBlk s = .next t) : Works s t ∧ Ready t := by
  cases h
  have hw : Works s (memWrite (answered s) .dout (ksOffset s) (ksBytes s)) := by
    constructor <;> simp [cipherInput_ksBlk hp, hp]
  have hn : nP (memWrite (answered s) .dout (ksOffset s) (ksBytes s)) = nP s := by simp [nP, payLen]
  split
  · exact ⟨hw.enterAt _ _, .enterAt_ks (hn ▸ ks_index_succ ‹_›)⟩
  · exact ⟨hw.leaveKeystream, .leaveKeystream _⟩

theorem execTagMask_effect (hp : s.w.phase = 8) (h : exec .tagMask s = .next t) : Works s t ∧ Ready t := by
  cases h
  split
  · have hw : Works s { s with regs := { s.regs with tagOut := maskedTag s } } := by
      constructor <;> simp [cipherInput, *]
    exact ⟨hw.enter _, .enter _ (by decide)⟩
  · have hw : Works s { s with w := { s.w with u := maskedTag s } } :=
      .working (by simp [cipherInput, hp]) (by simp [hp]) _ ⟨rfl, rfl, rfl⟩
    exact ⟨hw.enter _, .enter_compare (Bool.eq_false_of_not_eq_true ‹_›)⟩

theorem execCtCompare_effect (hp : s.w.phase = 9) (h : exec .ctCompare s = .next t) : Works s t ∧ Ready t := by
  cases h
  have hw : Works s { s with w := { s.w with aok := tagDiff (tagLen s) s.w.u s.regs.tagIn = 0 } } :=
    .working (by simp [cipherInput, hp]) (by simp [hp]) _ ⟨rfl, rfl, rfl⟩
  exact ⟨hw.enter _, .enter _ (by decide)⟩

theorem execCheck_effect (hp : s.w.phase = 1) (h : exec .check s = .next t) : EngineEffect s t := by
  simp only [exec, execCheck] at h
  split at h
  · cases h
    exact .reject _ _ hp ‹_›
  · cases h
    exact .begin hp ‹_›

/-- The sequencer's decoder, code by code (R110, R111). -/
theorem decodePhase_cases (c : BitVec 4) :
    (c = 0 ∧ decodePhase c = .idle) ∨ (c = 1 ∧ decodePhase c = .check) ∨ (c = 2 ∧ decodePhase c = .macB0) ∨
      (c = 3 ∧ decodePhase c = .macAad) ∨ (c = 4 ∧ decodePhase c = .macPay) ∨ (c = 5 ∧ decodePhase c = .macFinal) ∨
      (c = 6 ∧ decodePhase c = .ksS0) ∨ (c = 7 ∧ decodePhase c = .ksBlk) ∨ (c = 8 ∧ decodePhase c = .tagMask) ∨
      (c = 9 ∧ decodePhase c = .ctCompare) ∨ (c = 0xA ∧ decodePhase c = .fin) ∨ (c = 0xB ∧ decodePhase c = .errfin) ∨
      (0xC ≤ c.toNat ∧ decodePhase c = .phaseRsvd (c.extractLsb' 0 2)) := by
  revert c
  decide

/-- The micro-operation W.PHASE names has one of the six effects. -/
theorem exec_engine (h : exec (decodePhase s.w.phase) s = .next t) : EngineEffect s t := by
  have work (hp : 2 ≤ s.w.phase.toNat ∧ s.w.phase.toNat ≤ 9) (hw : Works s t ∧ Ready t) : EngineEffect s t :=
    .work hp.1 hp.2 hw.1 hw.2
  obtain ⟨hp, hd⟩ | ⟨hp, hd⟩ | ⟨hp, hd⟩ | ⟨hp, hd⟩ | ⟨hp, hd⟩ | ⟨hp, hd⟩ | ⟨hp, hd⟩ | ⟨hp, hd⟩ | ⟨hp, hd⟩ | ⟨hp, hd⟩ |
    ⟨hp, hd⟩ | ⟨hp, hd⟩ | ⟨hp, hd⟩ := decodePhase_cases s.w.phase <;> rw [hd] at h
  · cases h
    exact .idle hp
  · exact execCheck_effect hp h
  · exact work (by simp [hp]) (execMacB0_effect hp h)
  · exact work (by simp [hp]) (execMacAad_effect hp h)
  · exact work (by simp [hp]) (execMacPay_effect hp h)
  · exact work (by simp [hp]) (execMacFinal_effect hp h)
  · exact work (by simp [hp]) (execKsS0_effect hp h)
  · exact work (by simp [hp]) (execKsBlk_effect hp h)
  · exact work (by simp [hp]) (execTagMask_effect hp h)
  · exact work (by simp [hp]) (execCtCompare_effect hp h)
  · cases h
    exact .fin hp
  · cases h
    exact .errfin hp
  · cases h

/-! ### What a turn does -/

/-- The effect of each agent's turn on the state in which the turn is used up. -/
inductive TurnEffect (s : State) : Turn → State → Prop
  /-- The HOST's transaction, or none where the HOST has none to issue (R61). -/
  | host {t : State} : HostEffect s t → TurnEffect s .host t
  /-- The ENGINE's micro-operation (R44). -/
  | engine {t : State} : s.regs.status.busy = true → EngineEffect s t → TurnEffect s .engine t
  /-- The ENGINE has no step between commands (R27). -/
  | rest : s.regs.status.busy = false → TurnEffect s .engine s
  /-- The CIPHER has not answered yet (R22). -/
  | wait : TurnEffect s .wait (raiseRequest s)
  /-- Reset is taken (R260). -/
  | reset : TurnEffect s .reset (takeReset s)

theorem nextTurn_planned {turn : Turn} {ts : List Turn} (h : s.env.turns = turn :: ts) : nextTurn s = turn := by
  rw [nextTurn, takeTurn_planned h]

/-- A step uses up a turn, and a transaction where it is the HOST's, and has that turn's effect. -/
theorem step_effect (h : step s = .next t) :
    ∃ e : Surroundings, e.resets = s.env.resets ∧ TurnEffect { s with env := e } (nextTurn s) t := by
  obtain ⟨turn, ts, d, hturn⟩ := takeTurn_eq s
  rw [show nextTurn s = turn by rw [nextTurn, hturn]]
  simp only [step, hturn] at h
  cases turn with
  | host =>
    obtain hh | ⟨w, hs, hh⟩ : s.env.host = [] ∨ ∃ w hs, s.env.host = w :: hs := by cases s.env.host <;> simp
    · simp only [takeTransaction, hh] at h
      cases h
      exact ⟨{ s.env with host := [], turns := ts, draws := d }, rfl, .host .none⟩
    · simp only [takeTransaction, hh] at h
      obtain ⟨u, hu, heff⟩ :=
        exec_host (decodeHtx_isHost w) { s with env := { s.env with host := hs, turns := ts, draws := d } }
      cases hu.symm.trans h
      exact ⟨{ s.env with host := hs, turns := ts, draws := d }, rfl, .host heff⟩
  | engine =>
    refine ⟨{ s.env with turns := ts, draws := d }, rfl, ?_⟩
    cases hb : s.regs.status.busy with
    | true => exact .engine hb (exec_engine (by simpa [hb] using h))
    | false =>
      simp only [hb, Bool.false_eq_true, if_false] at h
      cases h
      exact .rest hb
  | wait =>
    cases h
    exact ⟨{ s.env with turns := ts, draws := d }, rfl, .wait⟩
  | reset =>
    cases h
    exact ⟨{ s.env with turns := ts, draws := d }, rfl, .reset⟩

end Sys2Proof.Machine
end

section
/-! PROOFS. Every step keeps the invariant, and reset has it. -/

namespace Sys2Proof.Machine

variable {s t : State}

/-! ### Between commands -/

/-- Between commands no request stands on the port. -/
theorem Sound.port_of_idle (h : Sound s) (hb : s.regs.status.busy = false) : s.port = none :=
  Option.eq_none_iff_forall_ne_some.mpr fun r hr =>
    Bool.false_ne_true (hb.symm.trans (h.request r hr).1)

/-- An idle engine keeps the invariant when only what `Sound.of_idle` does not speak of changes in its registers. -/
theorem Sound.idle_update (h : Sound s) (hb : s.regs.status.busy = false) {r : Regs} {m : Buffers}
    (hs : r.status = s.regs.status) (he : r.err = s.regs.err) (hc : m.canonical)
    (hi : Buffers.within { s with buf := m }) : Sound { s with regs := r, buf := m } :=
  .of_idle (hs ▸ hb) (h.idle_clear hb) (h.port_of_idle hb) (he ▸ h.err_value)
    (by simpa only [hs, he] using h.authok_done) hc hi

theorem Sound.regStore (h : Sound s) (hb : s.regs.status.busy = false) (off : Nat) (v : Byte) :
    Sound (regStore s off v) :=
  have ⟨hstatus, herr, _⟩ := put_readonly s.regs off v
  h.idle_update hb hstatus herr h.canonical h.within

theorem Buffers.canonical_iff {m : Buffers} : m.canonical ↔ ∀ b, Memory.wf (m.get b) :=
  ⟨fun ⟨ha, hi, ho⟩ b => by cases b <;> assumption, fun h => ⟨h .aad, h .din, h .dout⟩⟩

theorem store_canonical (h : s.buf.canonical) (b : Buffer) (off : Nat) (v : Byte) : (store s b off v).buf.canonical :=
  Buffers.canonical_iff.mpr fun b' => store_wf s b b' off v (Buffers.canonical_iff.mp h b')

theorem memWrite_canonical (h : s.buf.canonical) (b : Buffer) (off : Nat) (bytes : List Byte) :
    (memWrite s b off bytes).buf.canonical :=
  Buffers.canonical_iff.mpr fun b' => memWrite_wf s b b' off bytes (Buffers.canonical_iff.mp h b')

theorem capOf_congr (h : t.caps = s.caps) (b : Buffer) : t.capOf b = s.capOf b := by
  simp only [State.capOf, h]

theorem Buffers.within.congr (h : Buffers.within s) (hb : t.buf = s.buf) (hc : t.caps = s.caps) : Buffers.within t := by
  intro b c hmem
  rw [capOf_congr hc]
  exact h b c (hb ▸ hmem)

/-- Bytes written below the capacity leave every buffer within its own. -/
theorem memWrite_within (h : Buffers.within s) (b : Buffer) {off : Nat} {bytes : List Byte}
    (hcap : off + bytes.length ≤ s.capOf b) : Buffers.within (memWrite s b off bytes) := by
  intro b' c hc
  rw [capOf_congr (memWrite_caps s b off bytes)]
  obtain hold | ⟨rfl, -, hlt⟩ := memWrite_mem hc
  · exact h b' c hold
  · omega

theorem store_within (h : Buffers.within s) (b : Buffer) {off : Nat} (hoff : off < s.capOf b) (v : Byte) :
    Buffers.within (store s b off v) :=
  memWrite_within h b (bytes := [v]) hoff

theorem Sound.store (h : Sound s) (hb : s.regs.status.busy = false) (b : Buffer) {off : Nat} (hoff : off < s.capOf b)
    (v : Byte) : Sound (store s b off v) :=
  h.idle_update hb rfl rfl (store_canonical h.canonical b off v) (store_within h.within b hoff v)

/-! ### What the invariant does not speak of -/

/-- Whether the parameters are legal depends on five registers and the capacities. -/
theorem Legal.congr (h : Legal s) (hk : t.regs.keyLen = s.regs.keyLen) (hn : t.regs.nLen = s.regs.nLen)
    (ht : t.regs.tLen = s.regs.tLen) (ha : t.regs.aLen = s.regs.aLen) (hp : t.regs.pLen = s.regs.pLen)
    (hc : t.caps = s.caps) : Legal t := by
  obtain ⟨keyLen, nonce, tag, message, aad, data⟩ := h
  constructor <;> simpa only [nonceLen, aadLen, payLen, hk, hn, ht, ha, hp, hc]

/-- The invariant does not speak of WIGN, nor of what stands outside the engine but for the reset count; of the port it
says that a request there is the current micro-operation's. -/
theorem Sound.with_port (h : Sound s) (wign : Bool) {e : Surroundings} (he : e.resets = s.env.resets)
    {q : Option CipherRequest}
    (hq : ∀ r, q = some r → s.regs.status.busy = true ∧ ∃ x, cipherInput s = some x ∧ r = requestFor s x) :
    Sound { s with
      regs := { s.regs with status := { s.regs.status with wign := wign } }, port := q, env := e } := by
  obtain ⟨host, turns, returned, draws, resets⟩ := e
  cases he
  exact { h with
    checked := fun h2 hA =>
      have ⟨hop, hlegal, hl, hm⟩ := h.checked h2 hA
      ⟨hop, hlegal.congr rfl rfl rfl rfl rfl rfl, hl, hm⟩
    request := hq }

theorem Sound.with_wign (h : Sound s) (wign : Bool) :
    Sound { s with regs := { s.regs with status := { s.regs.status with wign := wign } } } :=
  h.with_port wign rfl h.request

theorem Sound.with_env (h : Sound s) {e : Surroundings} (he : e.resets = s.env.resets) : Sound { s with env := e } :=
  h.with_port s.regs.status.wign he h.request

/-- The request a wait leaves on the port is the one the invariant allows there. -/
theorem Sound.raiseRequest (h : Sound s) : Sound (raiseRequest s) := by
  unfold Machine.raiseRequest
  split
  case isFalse => exact h
  case isTrue hb =>
    split
    case h_1 x hx =>
      exact h.with_port s.regs.status.wign rfl fun r hr => ⟨hb, x, hx, (Option.some.inj hr).symm⟩
    case h_2 => exact h

/-! ### Reset -/

/-- The state after reset has the invariant, whatever stands outside the engine and whatever its capacities. -/
theorem Sound.of_reset (hr : s.regs = Regs.reset) (hw : s.w = Work.clear) (hb : s.buf = Buffers.unspecified)
    (hp : s.port = none) : Sound s := by
  refine .of_idle (by rw [hr]; rfl) hw hp (by rw [hr]; decide) (by rw [hr]; nofun) ?_ ?_
  · rw [hb]
    exact ⟨.nil, .nil, .nil⟩
  · intro b
    rw [hb]
    cases b <;> exact List.forall_mem_nil _

/-- Settles O44: reset sets every field the invariant speaks of. -/
theorem resetHasTheInvariant : Obligations.ResetHasTheInvariant := fun _ _ => .of_reset rfl rfl rfl rfl

/-! ### The HOST's turn -/

/-- No host transaction breaks the invariant. -/
theorem HostEffect.keeps_sound (he : HostEffect s t) (h : Sound s) : Sound t := by
  cases he with
  | none => exact h
  | wign b => exact h.with_wign b
  | answer r d => exact h.with_env rfl
  | accept v hb => exact h.acceptCommand hb v
  | reg off v hb => exact h.regStore hb off v
  | buffer b off v hb _ hoff => exact h.store hb b hoff v

/-! ### The ENGINE's turn -/

/-- Only a failure of R231 is reported. -/
theorem checkFailure_value {code : BitVec 2} {cause : BitVec 3} (h : checkFailure s = some (code, cause)) :
    (⟨code, cause⟩ : Err) ∈ errValues ∧ code ≠ 0 := by
  unfold checkFailure at h
  split_ifs at h <;> cases h <;> decide

/-- What CHECK found when it finds no failure (R195). -/
theorem checkFailure_none (h : checkFailure s = none) : (s.w.op = 1 ∨ s.w.op = 2) ∧ Legal s := by
  unfold checkFailure at h
  split_ifs at h with hop hkey hnonce htag hmsg haad hdata
  refine ⟨?_, ⟨hkey, by omega, htag, ?_, ?_, ?_⟩⟩
  · simpa [← BitVec.toNat_inj] using hop
  · simpa [fmtL] using hmsg
  · exact Nat.le_of_not_lt haad
  · exact Nat.le_of_not_lt hdata

/-- W.L and W.M hold `15 - N` and the tag length of legal parameters in full (R46). -/
theorem Legal.fits (h : Legal s) :
    (BitVec.ofNat 4 (fmtL (nonceLen s))).toNat = 15 - nonceLen s ∧
      (s.regs.tLen.setWidth 5).toNat = s.regs.tLen.toNat := by
  have hn := h.nonce
  have ht : s.regs.tLen.toNat ≤ 16 := by
    have := h.tag
    simp only [List.mem_cons, List.not_mem_nil, or_false] at this
    omega
  refine ⟨?_, ?_⟩
  · rw [BitVec.toNat_ofNat, fmtL]
    omega
  · rw [BitVec.toNat_setWidth]
    omega

/-- Where the current micro-operation sends nothing, no request stands on the port. -/
theorem Sound.port_none (h : Sound s) (hx : cipherInput s = none) : s.port = none := by
  refine Option.eq_none_iff_forall_ne_some.mpr fun r hr => ?_
  obtain ⟨-, x, hsome, -⟩ := h.request r hr
  cases hx.symm.trans hsome

/-- The invariant of a command after CHECK comes down to its parameters, its buffers and a ready sequencer. -/
theorem Sound.of_ready (hready : Ready t) (hbusy : t.regs.status.busy = true)
    (hrun : t.regs.status.done = false ∧ t.regs.status.authok = false ∧ t.regs.err = Err.none)
    (hchecked : (t.w.op = 1 ∨ t.w.op = 2) ∧ Legal t ∧ lenWidth t = 15 - nonceLen t ∧ tagLen t = t.regs.tLen.toNat)
    (hc : t.buf.canonical) (hi : Buffers.within t) (hport : t.port = none) : Sound t := by
  obtain ⟨hmin, hmax⟩ := hready.phase_range
  obtain ⟨hdone, hauthok, herr⟩ := hrun
  exact {
    canonical := hc
    within := hi
    busy_iff := ⟨fun _ h0 => by simp [h0] at hmin, fun _ => hbusy⟩
    phase_le := by omega
    running := fun _ => ⟨hdone, hauthok, herr⟩
    idle_clear := by simp [hbusy]
    err_value := by simp [herr, Err.none, errValues]
    authok_done := by simp [hauthok]
    checked := fun _ _ => hchecked
    compare_decrypt := fun hp => hchecked.1.resolve_left fun hop => by simpa [isEncrypt, hop] using hready.compare hp
    aad_index := hready.aad_index
    pay_index := hready.pay_index
    ks_index := hready.ks_index
    reporting := fun hp => by simp [hp] at hmax
    request := by simp [hport] }

/-! ### CHECK -/

theorem beginCommand_ready (s : State) : Ready (beginCommand s) := by
  cases henc : isEncrypt s <;> constructor <;> simp [beginCommand, henc]

/-- A command that passes CHECK has what the invariant asks of it from then on (R46, R195). -/
theorem beginCommand_sound (h : Sound s) (hb : s.regs.status.busy = true) (hport : s.port = none)
    (hpass : checkFailure s = none) : Sound (beginCommand s) := by
  obtain ⟨hop, hlegal⟩ := checkFailure_none hpass
  obtain ⟨hl, hm⟩ := hlegal.fits
  exact .of_ready (beginCommand_ready s) hb (h.running hb) ⟨hop, hlegal.congr rfl rfl rfl rfl rfl rfl, hl, hm⟩
    h.canonical h.within hport

/-- A command that fails CHECK has a failure of R231 to report. -/
theorem failCheck_sound (h : Sound s) (hb : s.regs.status.busy = true) (hport : s.port = none) {code : BitVec 2}
    {cause : BitVec 3} (hvalue : (⟨code, cause⟩ : Err) ∈ errValues ∧ code ≠ 0) : Sound (failCheck s code cause) where
  canonical := h.canonical
  within := h.within
  busy_iff := by simp [hb]
  phase_le := by simp
  running := h.running
  idle_clear := by simp [hb]
  err_value := h.err_value
  authok_done := h.authok_done
  checked := by simp
  compare_decrypt := by simp
  aad_index := by simp
  pay_index := by simp
  ks_index := by simp
  reporting := fun _ => hvalue
  request := by simp [hport]

/-! ### The micro-operations after CHECK -/

theorem Works.canonical (hw : Works s t) (h : s.buf.canonical) : t.buf.canonical := by
  rw [hw.buf]
  split
  · exact memWrite_canonical (s := answered s) h _ _ _
  · exact h

/-- KS_BLK writes below PLEN, which CHECK held to the capacity (R172, R195). -/
theorem ksBlk_fits (h : Sound s) (hp : s.w.phase = 7) : ksOffset s + (ksBytes s).length ≤ s.capOf .dout := by
  obtain ⟨-, hlegal, -⟩ := h.checked (by simp [hp]) (by simp [hp])
  obtain ⟨hfirst, hlast⟩ := h.ks_index hp
  have hdata : payLen s ≤ s.capOf .dout := hlegal.data
  simp only [ksBytes, ksCount, ksOffset, nP, payBlocks, ceil16, xorBytes_length, memRead_length,
    firstBytes_length] at hlast ⊢
  omega

theorem Works.within (hw : Works s t) (h : Sound s) : Buffers.within t := by
  by_cases hp : s.w.phase = 7
  · have hwrite : Buffers.within (memWrite (answered s) .dout (ksOffset s) (ksBytes s)) :=
      memWrite_within (s := answered s) h.within .dout (ksBlk_fits h hp)
    exact hwrite.congr (by rw [hw.buf, if_pos hp]) (by simp [hw.caps])
  · exact h.within.congr (by rw [hw.buf, if_neg hp]) hw.caps

/-- The frame keeps the parameters and W.OP, W.L and W.M, so what CHECK established stays. -/
theorem Works.checked (hw : Works s t)
    (h : (s.w.op = 1 ∨ s.w.op = 2) ∧ Legal s ∧ lenWidth s = 15 - nonceLen s ∧ tagLen s = s.regs.tLen.toNat) :
    (t.w.op = 1 ∨ t.w.op = 2) ∧ Legal t ∧ lenWidth t = 15 - nonceLen t ∧ tagLen t = t.regs.tLen.toNat := by
  obtain ⟨hop, hlegal, hl, hm⟩ := h
  have hregs := hw.regs
  refine ⟨hw.op ▸ hop, ?_, ?_, ?_⟩
  · exact hlegal.congr (by rw [hregs]) (by rw [hregs]) (by rw [hregs]) (by rw [hregs]) (by rw [hregs]) hw.caps
  · rw [lenWidth, hw.l, nonceLen, hregs]
    exact hl
  · rw [tagLen, hw.m, hregs]
    exact hm

theorem Works.keeps_sound (hw : Works s t) (hready : Ready t) (h : Sound s) (hb : s.regs.status.busy = true)
    (h2 : 2 ≤ s.w.phase.toNat) (h9 : s.w.phase.toNat ≤ 9) : Sound t := by
  have hstatus : t.regs.status = s.regs.status := by rw [hw.regs]
  have herr : t.regs.err = s.regs.err := by rw [hw.regs]
  have hport : t.port = none := by
    rw [hw.port]
    split
    · exact h.port_none ‹_›
    · rfl
  exact .of_ready hready (hstatus ▸ hb) (by rw [hstatus, herr]; exact h.running hb)
    (hw.checked (h.checked h2 (by omega))) (hw.canonical h.canonical) (hw.within h) hport

/-! ### The step -/

/-- No micro-operation breaks the invariant. -/
theorem EngineEffect.keeps_sound (he : EngineEffect s t) (hb : s.regs.status.busy = true) (h : Sound s) : Sound t := by
  cases he with
  | idle => exact h
  | reject code cause hp hfail =>
    exact failCheck_sound h hb (h.port_none (by simp [cipherInput, hp])) (checkFailure_value hfail)
  | begin hp hpass => exact beginCommand_sound h hb (h.port_none (by simp [cipherInput, hp])) hpass
  | work h2 h9 hw hready => exact hw.keeps_sound hready h hb h2 h9
  | fin hp =>
    obtain ⟨-, -, herr⟩ := h.running hb
    exact .of_idle rfl rfl (h.port_none (by simp [cipherInput, hp])) h.err_value (fun _ => ⟨rfl, herr⟩) h.canonical
      h.within
  | errfin hp =>
    exact .of_idle rfl rfl (h.port_none (by simp [cipherInput, hp])) (h.reporting hp).1 nofun h.canonical h.within

theorem TurnEffect.keeps_sound {turn : Turn} (he : TurnEffect s turn t) (h : Sound s) : Sound t := by
  cases he with
  | host he => exact he.keeps_sound h
  | engine hb he => exact he.keeps_sound hb h
  | rest => exact h
  | wait => exact h.raiseRequest
  | reset => exact .of_reset rfl rfl rfl rfl

/-- Settles O43: the effect of each agent's turn keeps the invariant. -/
theorem stepKeepsTheInvariant : Obligations.StepKeepsTheInvariant := by
  intro s t h hstep
  obtain ⟨e, hresets, he⟩ := step_effect hstep
  exact he.keeps_sound (h.with_env hresets)

end Sys2Proof.Machine
end

section
/-! PROOFS. The turns, the flags and the outputs of spec/10_state.md: who changes them, and in which turn. -/

namespace Sys2Proof.Machine

variable {s t : State} {turn : Turn} {ts : List Turn}

/-! ### Turns -/

/-- Settles O6: the step in the ENGINE's turn, by BUSY. -/
theorem stepRunsTheMicroOperation : Obligations.StepRunsTheMicroOperation := by
  intro s ts h
  rw [step_engine h]
  exact ⟨fun hb => by rw [if_pos hb]; rfl, fun hb => by rw [hb]; rfl⟩

/-- The step of a planned turn has that turn's effect on the state in which the turn is used up. -/
theorem step_effect_planned (hturn : s.env.turns = turn :: ts) (h : step s = .next t) :
    ∃ e : Surroundings, e.resets = s.env.resets ∧ TurnEffect { s with env := e } turn t :=
  nextTurn_planned hturn ▸ step_effect h

/-! ### What a turn does to the flags and the outputs -/

@[simp] theorem raiseRequest_regs (s : State) : (raiseRequest s).regs = s.regs := by
  obtain ⟨q, hq⟩ := raiseRequest_eq s
  rw [hq]

@[simp] theorem raiseRequest_buf (s : State) : (raiseRequest s).buf = s.buf := by
  obtain ⟨q, hq⟩ := raiseRequest_eq s
  rw [hq]

/-- The HOST cannot take a command back. -/
theorem HostEffect.busy_stays (he : HostEffect s t) (h : s.regs.status.busy = true) : t.regs.status.busy = true := by
  cases he with
  | none | wign | answer | buffer => exact h
  | accept => rfl
  | reg off v => simpa [(put_readonly s.regs off v).1] using h

/-- A micro-operation leaves STATUS, but for the completions, which set DONE; AUTHOK is set by FIN alone, for a DECRYPT
whose tags agreed (R29, R203, R204). -/
theorem EngineEffect.status (he : EngineEffect s t) :
    t.regs.status = s.regs.status ∨
      ((s.w.phase = 0xA ∨ s.w.phase = 0xB) ∧ t.regs.status.done = true ∧
        (t.regs.status.authok = true → s.w.phase = 0xA ∧ s.w.op = 2 ∧ s.w.aok = true)) := by
  cases he with
  | idle | reject | begin => exact .inl rfl
  | work _ _ hw => exact .inl (by rw [hw.regs])
  | fin hp =>
    refine .inr ⟨.inl hp, rfl, fun hv => ?_⟩
    obtain ⟨hop, haok⟩ : s.w.op.toNat = 2 ∧ s.w.aok = true := by simpa [Status.completed] using hv
    exact ⟨hp, BitVec.eq_of_toNat_eq hop, haok⟩
  | errfin hp => exact .inr ⟨.inr hp, rfl, nofun⟩

theorem isEncrypt_iff : isEncrypt s = true ↔ s.w.op = 1 := by
  simp [isEncrypt, ← BitVec.toNat_inj]

/-- Of the micro-operations only TAG_MASK of an ENCRYPT writes TAGOUT, and only KS_BLK writes DOUT. -/
theorem EngineEffect.outputs (he : EngineEffect s t) :
    (t.regs.tagOut ≠ s.regs.tagOut → s.w.phase = 8 ∧ s.w.op = 1) ∧ (t.buf.dout ≠ s.buf.dout → s.w.phase = 7) := by
  cases he with
  | idle | reject | begin | fin | errfin => exact ⟨fun h => absurd rfl h, fun h => absurd rfl h⟩
  | work _ _ hw =>
    refine ⟨fun h => ?_, fun h => by_contra fun hp => h (by rw [hw.buf, if_neg hp])⟩
    obtain ⟨hp, henc⟩ := hw.tagOut h
    exact ⟨hp, isEncrypt_iff.mp henc⟩

/-- Settles O47: of the effects of a turn only the two completions and reset take BUSY from 1 to 0. -/
theorem onlyCompletionClearsBusy : Obligations.OnlyCompletionClearsBusy := by
  intro s t turn ts hturn hstep hbusy hidle
  obtain ⟨e, -, he⟩ := step_effect_planned hturn hstep
  have hchange : t.regs.status ≠ s.regs.status := fun h => by simp [h, hbusy] at hidle
  cases he with
  | host he => exact absurd (he.busy_stays hbusy) (by simp [hidle])
  | engine _ he =>
    obtain ⟨hphase, hdone, -⟩ := he.status.resolve_left hchange
    exact .inr ⟨rfl, hphase, hdone⟩
  | rest => exact absurd rfl hchange
  | wait => exact absurd (by simp) hchange
  | reset => exact .inl rfl

/-- Settles O48: of the effects of a turn only FIN takes AUTHOK from 0 to 1. -/
theorem authokOnlyFromFin : Obligations.AuthokOnlyFromFin := by
  intro s t turn ts hturn hstep hclear hset
  obtain ⟨e, -, he⟩ := step_effect_planned hturn hstep
  have hchange : t.regs.status ≠ s.regs.status := fun h => by simp [h, hclear] at hset
  cases he with
  | host he =>
    obtain ⟨-, -, -, -, hauthok, -⟩ := he.frame
    simp [hclear, hset] at hauthok
  | engine _ he =>
    obtain ⟨-, hdone, hfin⟩ := he.status.resolve_left hchange
    obtain ⟨hp, hop, haok⟩ := hfin hset
    exact ⟨rfl, hp, hop, haok, hdone⟩
  | rest => exact absurd rfl hchange
  | wait => exact absurd (by simp) hchange
  | reset => cases hset

/-- Settles O50: of the effects of a turn, reset aside, only the ENGINE's two micro-operations write the outputs. -/
theorem outputsWrittenOnlyByTheirStep : Obligations.OutputsWrittenOnlyByTheirStep := by
  intro s t turn ts hturn hreset hstep
  obtain ⟨e, -, he⟩ := step_effect_planned hturn hstep
  have same (htag : t.regs.tagOut = s.regs.tagOut) (hdout : t.buf.dout = s.buf.dout) {P Q : Prop} :
      (t.regs.tagOut ≠ s.regs.tagOut → P) ∧ (t.buf.dout ≠ s.buf.dout → Q) :=
    ⟨fun h => absurd htag h, fun h => absurd hdout h⟩
  cases he with
  | host he =>
    obtain ⟨-, -, hdout, htag, -⟩ := he.frame
    exact same htag hdout
  | engine hb he =>
    obtain ⟨htag, hdout⟩ := he.outputs
    exact ⟨fun h => ⟨rfl, hb, htag h⟩, fun h => ⟨rfl, hb, hdout h⟩⟩
  | rest => exact same rfl rfl
  | wait => exact same (by simp) (by simp)
  | reset => exact absurd rfl hreset

/-! ### STATUS and ERR -/

/-- Settles O11: the two bytes, at every value of their fields. -/
theorem statusAndErrLayout : Obligations.StatusAndErrLayout := by
  constructor
  · rintro ⟨busy, done, authok, wign⟩
    revert busy done authok wign
    decide
  · rintro ⟨code, cause⟩
    revert code cause
    decide

/-- Settles O16: bit 3 of the data clears WIGN. -/
theorem statusWriteClearsOnlyWign : Obligations.StatusWriteClearsOnlyWign := by
  intro s data
  have hwign : s.regs.status.written data =
      { s.regs.status with wign := if data.getLsbD 3 then false else s.regs.status.wign } := by
    simp only [Status.written]
    cases data.getLsbD 3 <;> simp
  rw [← hwign]
  rfl

/-! ### Reset -/

/-- Settles O9: the fields after reset, the same whether the machine starts or takes a reset. -/
theorem resetLeavesTheResetValues : Obligations.ResetLeavesTheResetValues := by
  intro t ht
  obtain ⟨hr, hw, hb, hp⟩ : t.regs = Regs.reset ∧ t.w = Work.clear ∧ t.buf = Buffers.unspecified ∧ t.port = none := by
    obtain rfl | ⟨s, ts, hturn, hstep⟩ := ht
    · exact ⟨rfl, rfl, rfl, rfl⟩
    · cases (step_reset hturn).symm.trans hstep
      exact ⟨rfl, rfl, rfl, rfl⟩
  have hstored (b : Buffer) (off : Nat) : stored t b off = none := by
    rw [stored, hb]
    cases b <;> rfl
  rw [hr, hw]
  refine ⟨by decide, by decide, ?_⟩
  simp [Regs.reset, Work.clear, hstored, hp]

end Sys2Proof.Machine
end

section
/-! PROOFS. The register map of space REG (R24 to R41): its byte order, and what a write and a read of an offset do. -/

namespace Sys2Proof.Machine

variable {s : State}

/-! ### The byte order of ALEN and PLEN -/

/-- A 64-bit register is its eight bytes, the first of weight `2^56` (R71). -/
theorem toNat_eq_sum_regByte (v : BitVec 64) :
    v.toNat = ((List.range 8).map fun j => (regByte v j).toNat * 2 ^ (8 * (7 - j))).sum := by
  have := v.isLt
  simp only [List.range_succ, List.range_zero, regByte, BitVec.extractLsb'_toNat, Nat.shiftRight_eq_div_pow,
    List.map_append, List.map_cons, List.map_nil, List.nil_append, List.sum_append, List.sum_cons, List.sum_nil]
  omega

/-- The bits of the mask of one byte. -/
theorem getElem_255 : ∀ i (h : i < 64), (255#64)[i] = decide (i < 8) := by decide

/-- Replacing a byte replaces that byte and no other. -/
theorem regByte_setRegByte (v : BitVec 64) {j k : Nat} (b : Byte) (hj : j < 8) (hk : k < 8) :
    regByte (setRegByte v j b) k = if k = j then b else regByte v k := by
  refine BitVec.eq_of_getLsbD_eq fun i hi => ?_
  have hin : 8 * (7 - k) + i < 64 := by omega
  split
  case isTrue hkj =>
    subst hkj
    simp [regByte, setRegByte, getElem_255, hi, hin]
  case isFalse hkj =>
    obtain hbelow | habove : 8 * (7 - k) + i < 8 * (7 - j) ∨ 8 ≤ 8 * (7 - k) + i - 8 * (7 - j) := by omega
    · simp [regByte, setRegByte, getElem_255, hi, hin, hbelow]
    · simp [regByte, setRegByte, getElem_255, hi, hin, Nat.not_lt.mpr habove, BitVec.getLsbD_of_ge b _ habove]

/-! ### The rows of the map -/

theorem regLoad_aLen (s : State) {j : Nat} (hj : j < 8) : regLoad s (0x08 + j) = some (regByte s.regs.aLen j) := by
  simp (disch := omega) only [regLoad, if_neg, if_pos, Nat.add_sub_cancel_left]

theorem regLoad_pLen (s : State) {j : Nat} (hj : j < 8) : regLoad s (0x10 + j) = some (regByte s.regs.pLen j) := by
  simp (disch := omega) only [regLoad, if_neg, if_pos, Nat.add_sub_cancel_left]

theorem regLoad_nonce (s : State) {j : Nat} (hj : j < 13) : regLoad s (0x40 + j) = some (byteAt s.regs.nonce j) := by
  simp (disch := omega) only [regLoad, if_neg, if_pos, Nat.add_sub_cancel_left]

theorem regLoad_tagIn (s : State) {j : Nat} (hj : j < 16) : regLoad s (0x50 + j) = some (byteAt s.regs.tagIn j) := by
  simp (disch := omega) only [regLoad, if_neg, if_pos, Nat.add_sub_cancel_left]

theorem regLoad_tagOut (s : State) {j : Nat} (hj : j < 16) :
    regLoad s (0x60 + j) = if s.regs.status.busy then none else some (byteAt s.regs.tagOut j) := by
  simp (disch := omega) only [regLoad, if_neg, if_pos, Nat.add_sub_cancel_left]

/-- KEY reads as zero (R37). -/
theorem regLoad_key (s : State) {j : Nat} (hj : j < 32) : regLoad s (0x20 + j) = some 0 := by
  simp (disch := omega) only [regLoad, if_neg]

theorem regLoad_reserved (s : State) {off : Nat} (h : reservedOffset off = true) : regLoad s off = some 0 := by
  simp only [reservedOffset, Bool.or_eq_true, Bool.and_eq_true, decide_eq_true_eq] at h
  simp (disch := omega) only [regLoad, if_neg]

theorem regStore_aLen (s : State) {j : Nat} (b : Byte) (hj : j < 8) :
    regStore s (0x08 + j) b = { s with regs := { s.regs with aLen := setRegByte s.regs.aLen j b } } := by
  simp (disch := omega) only [regStore, Regs.put, if_neg, if_pos, Nat.add_sub_cancel_left]

theorem regStore_pLen (s : State) {j : Nat} (b : Byte) (hj : j < 8) :
    regStore s (0x10 + j) b = { s with regs := { s.regs with pLen := setRegByte s.regs.pLen j b } } := by
  simp (disch := omega) only [regStore, Regs.put, if_neg, if_pos, Nat.add_sub_cancel_left]

/-- Settles O12: the rows of ALEN and PLEN in the register map, and the weight of each byte. -/
theorem lengthRegistersAreBigEndian : Obligations.LengthRegistersAreBigEndian :=
  ⟨fun s _ hj => ⟨regLoad_aLen s hj, regLoad_pLen s hj⟩,
    fun s _ b hj => ⟨regStore_aLen s b hj, regStore_pLen s b hj⟩,
    fun v => ⟨toNat_eq_sum_regByte v, fun _ _ b => regByte_setRegByte v b⟩⟩

/-! ### A write -/

theorem byteAt_setIfInBounds {n : Nat} (v : Vector Byte n) (i j : Nat) (b : Byte) :
    byteAt (v.setIfInBounds i b) j = if i = j ∧ j < n then b else byteAt v j := by
  by_cases hj : j < n
  · simp [byteAt_of_lt, hj, Vector.getElem_setIfInBounds]
  · simp [byteAt, hj]

/-- A write is not seen at another offset: the branch of the map it takes changes one byte of one row. -/
theorem regLoad_put_of_ne (s : State) {off o : Nat} (v : Byte) (h : o ≠ off) :
    regLoad { s with regs := s.regs.put off v } o = regLoad s o := by
  unfold Regs.put
  split_ifs <;> simp only [regLoad, byteAt_setIfInBounds]
  all_goals grind [regByte_setRegByte]

/-- A read/write register byte reads back, whichever branch of the map it is in. -/
theorem regLoad_put_self (s : State) {off : Nat} (v : Byte) (h : readWriteOffset off = true) :
    regLoad { s with regs := s.regs.put off v } off = some v := by
  simp only [readWriteOffset, Bool.or_eq_true, Bool.and_eq_true, decide_eq_true_eq] at h
  unfold Regs.put
  split_ifs <;> simp only [regLoad, byteAt_setIfInBounds]
  all_goals grind [regByte_setRegByte]

/-- A write of any other offset stores at most a byte of KEY. -/
theorem put_of_not_readWrite (r : Regs) {off : Nat} (v : Byte) (h : readWriteOffset off = false) :
    ∃ key, r.put off v = { r with key := key } := by
  simp only [readWriteOffset, Bool.or_eq_false_iff, Bool.and_eq_false_iff, decide_eq_false_iff_not] at h
  simp (disch := omega) only [Regs.put, if_neg]
  split_ifs
  · exact ⟨_, rfl⟩
  · exact ⟨r.key, rfl⟩

/-- What a register read returns after a register write. -/
theorem regLoad_put (s : State) (off o : Nat) (v : Byte) :
    regLoad { s with regs := s.regs.put off v } o =
      if o = off ∧ readWriteOffset o = true then some v else regLoad s o := by
  by_cases hoff : o = off
  · subst hoff
    cases hrw : readWriteOffset o with
    | true => rw [if_pos ⟨rfl, rfl⟩, regLoad_put_self s v hrw]
    | false =>
      obtain ⟨key, hkey⟩ := put_of_not_readWrite s.regs v hrw
      rw [if_neg (by simp), hkey]
      rfl
  · rw [if_neg (fun h => hoff h.1), regLoad_put_of_ne s v hoff]

theorem byteAt_key_put (r : Regs) (off : Nat) (v : Byte) {j : Nat} (hj : j < 32) :
    byteAt (r.put off v).key j = if off = 0x20 + j then v else byteAt r.key j := by
  by_cases hkey : 0x20 ≤ off ∧ off ≤ 0x3F
  · simp (disch := omega) only [Regs.put, if_neg, if_pos, byteAt_setIfInBounds]
    congr 1
    simp only [eq_iff_iff]
    omega
  · have hput : (r.put off v).key = r.key := by
      unfold Regs.put
      split_ifs <;> rfl
    rw [hput, if_neg (by omega)]

/-- Settles O13: the write of an idle engine is `Regs.put`, seen through KEY and through a read of every offset. -/
theorem registerWriteStoresOneByte : Obligations.RegisterWriteStoresOneByte := by
  intro s off data _ hidle
  obtain ⟨hstatus, herr, htagOut⟩ := put_readonly s.regs off.toNat data
  exact ⟨s.regs.put off.toNat data, congrArg Host.Outcome.next (hostWrite_idle hidle _), hstatus, herr, htagOut,
    fun j hj => byteAt_key_put s.regs _ data hj, fun o => regLoad_put s _ o data⟩

/-! ### A read -/

/-- Reading an offset returns what the map holds there, and draws a free byte only where it holds none. -/
theorem exec_regRd_eq (s : State) (off : BitVec 64) :
    ∃ (v : Byte) (d : Nat),
      exec (.regRd off) s = .next { s with env := { s.env with returned := v :: s.env.returned, draws := d } } ∧
      ∀ x, regLoad s off.toNat = some x → v = x ∧ d = s.env.draws := by
  obtain ⟨v, d, heq, hsome, -⟩ := respond_eq s (regLoad s off.toNat)
  exact ⟨v, d, congrArg Host.Outcome.next heq, hsome⟩

/-- Only TAGOUT while BUSY = 1 holds no byte (R69). -/
theorem regLoad_eq_none {off : Nat} (h : regLoad s off = none) :
    s.regs.status.busy = true ∧ 0x60 ≤ off ∧ off ≤ 0x6F := by
  revert h
  fun_cases regLoad s off
  case case10 htag hbusy => exact fun _ => ⟨hbusy, htag⟩
  all_goals exact nofun

/-- Settles O14: the rows of the register map, one by one. -/
theorem registerReadReturnsTheMappedByte : Obligations.RegisterReadReturnsTheMappedByte := by
  intro s off
  obtain ⟨v, d, hexec, hread⟩ := exec_regRd_eq s off
  have row {o : Nat} {x : Byte} (hoff : off.toNat = o) (hload : regLoad s o = some x) : v = x :=
    (hread x (hoff ▸ hload)).1
  refine ⟨v, d, hexec, fun hfree => ?_, (row · rfl), (row · rfl), (row · rfl), (row · rfl), (row · rfl), (row · rfl),
    fun j hj hoff => row hoff (regLoad_aLen s hj), fun j hj hoff => row hoff (regLoad_pLen s hj),
    fun j hj hoff => row hoff (regLoad_key s hj), fun j hj hoff => row hoff (regLoad_nonce s hj),
    fun j hj hoff => row hoff (regLoad_tagIn s hj),
    fun j hj hoff hidle => row hoff (by rw [regLoad_tagOut s hj, hidle]; rfl),
    fun hres => row rfl (regLoad_reserved s hres)⟩
  obtain ⟨x, hx⟩ := Option.ne_none_iff_exists'.mp fun hnone => hfree (regLoad_eq_none hnone)
  exact (hread x hx).2

/-- An answer reaches the same surroundings whatever the registers hold. -/
theorem respond_regs (s : State) (r : Regs) (v : Option Byte) :
    ∃ e : Surroundings, respond s v = { s with env := e } ∧
      respond { s with regs := r } v = { s with regs := r, env := e } := by
  cases v <;> exact ⟨_, rfl, rfl⟩

/-- Settles O15: each read looks up a byte that does not depend on KEY. -/
theorem keyCannotBeReadBack : Obligations.KeyCannotBeReadBack := by
  intro s key i hi
  have answer (v : Option Byte) (h : exec i s = .next (respond s v))
      (hkey : exec i { s with regs := { s.regs with key := key } } =
        .next (respond { s with regs := { s.regs with key := key } } v)) :
      ∃ e : Surroundings, exec i s = .next { s with env := e } ∧
        exec i { s with regs := { s.regs with key := key } } =
          .next { s with regs := { s.regs with key := key }, env := e } := by
    obtain ⟨e, he, hekey⟩ := respond_regs s { s.regs with key := key } v
    exact ⟨e, h.trans (congrArg _ he), hkey.trans (congrArg _ hekey)⟩
  cases i with
  | regRd off => exact answer (regLoad s off.toNat) rfl rfl
  | aadRd off => exact answer (hostLoad s .aad off.toNat) rfl rfl
  | dinRd off => exact answer (hostLoad s .din off.toNat) rfl rfl
  | doutRd off => exact answer (if s.regs.status.busy then none else hostLoad s .dout off.toNat) rfl rfl
  | cmdNop | encrypt | decrypt | cmdRsvd | statusW | regWr | aadWr | dinWr | doutWr => cases hi
  | idle | check | macB0 | macAad | macPay | macFinal | ksS0 | ksBlk | tagMask => cases hi
  | ctCompare | fin | errfin | phaseRsvd => cases hi

end Sys2Proof.Machine
end

section
/-! PROOFS. The cipher port: how a request is packed (R72), and which one a wait leaves (R22; log 9). -/

namespace Sys2Proof.Machine

variable {s : State}

/-! ### Packing -/

/-- Byte `j` of a packed string is a base-256 digit of its value, the last byte the lowest. -/
theorem packBytes_digit (l : List Byte) {j : Nat} (hj : j < l.length) :
    packBytes l / 256 ^ (l.length - 1 - j) % 256 = (l.getD j 0).toNat := by
  induction l using List.reverseRecOn with
  | nil => simp at hj
  | append_singleton l b ih =>
    have hb := b.isLt
    rw [packBytes_concat, List.length_append, List.length_singleton, Nat.add_sub_cancel]
    obtain rfl | hlt : j = l.length ∨ j < l.length := by
      simp only [List.length_append, List.length_singleton] at hj
      omega
    · simp [List.getD_eq_getElem?_getD]
      omega
    · have hpow : l.length - j = (l.length - 1 - j) + 1 := by omega
      rw [hpow, Nat.pow_succ', ← Nat.div_div_eq_div_mul, List.getD_append _ _ _ _ hlt, ← ih hlt]
      congr 2
      omega

theorem packBytes_lt (l : List Byte) : packBytes l < 256 ^ l.length := by
  induction l using List.reverseRecOn with
  | nil => simp
  | append_singleton l b ih =>
    have hb := b.isLt
    rw [packBytes_concat, List.length_append, List.length_singleton, Nat.pow_succ]
    omega

/-- Byte `j` of a string stands in lane `j` of its word, counted from the most significant one (R72). -/
theorem extract_packBytes {l : List Byte} {n w j : Nat} (hl : l.length = n) (hw : w = 8 * n) (hj : j < n) :
    (BitVec.ofNat w (packBytes l)).extractLsb' (8 * (n - 1 - j)) 8 = l.getD j 0 := by
  subst hl hw
  have hlt := packBytes_lt l
  have hpow (k : Nat) : 2 ^ (8 * k) = 256 ^ k := Nat.pow_mul 2 8 k
  rw [← BitVec.toNat_inj, BitVec.extractLsb'_toNat, BitVec.toNat_ofNat, Nat.shiftRight_eq_div_pow, hpow, hpow,
    Nat.mod_eq_of_lt hlt, ← packBytes_digit l hj]

/-! ### The request -/

theorem requestFor_block (s : State) (x : Block) {j : Nat} (hj : j < 16) :
    (requestFor s x).block.extractLsb' (120 - 8 * j) 8 = byteAt x j := by
  rw [byteAt_eq_getD, ← extract_packBytes (w := 128) (by simp) rfl hj, show 120 - 8 * j = 8 * (16 - 1 - j) by omega]
  rfl

/-- The key word holds `KEY[0..KEYLEN)` and zeros after it. -/
theorem requestFor_key (s : State) (x : Block) {j : Nat} (hj : j < 32) :
    (requestFor s x).key.extractLsb' (248 - 8 * j) 8 = if j < s.regs.keyLen.toNat then byteAt s.regs.key j else 0 := by
  have hlen : (keyBytes s).length = min s.regs.keyLen.toNat 32 := by simp [keyBytes]
  have hword : (keyBytes s ++ List.replicate (32 - (keyBytes s).length) 0).length = 32 := by
    rw [List.length_append, List.length_replicate]
    omega
  calc (requestFor s x).key.extractLsb' (248 - 8 * j) 8
      = (keyBytes s ++ List.replicate (32 - (keyBytes s).length) 0).getD j 0 := by
        rw [← extract_packBytes (w := 256) hword rfl hj, show 248 - 8 * j = 8 * (32 - 1 - j) by omega]
        rfl
    _ = if j < s.regs.keyLen.toNat then byteAt s.regs.key j else 0 := by
        split
        case isTrue hin =>
          rw [List.getD_append _ _ _ _ (by omega), byteAt_eq_getD, keyBytes]
          simp [List.getD_eq_getElem?_getD, hin]
        case isFalse hout =>
          rw [List.getD_append_right _ _ _ _ (by omega)]
          exact List.getD_replicate 0 (by omega)

/-! ### What a wait leaves on the port -/

theorem raiseRequest_port_idle (h : s.regs.status.busy = false) : (raiseRequest s).port = s.port := by
  simp [raiseRequest, h]

theorem raiseRequest_port_none (h : cipherInput s = none) : (raiseRequest s).port = s.port := by
  unfold raiseRequest
  split <;> simp [h]

theorem raiseRequest_port_some (hb : s.regs.status.busy = true) {x : Block} (h : cipherInput s = some x) :
    (raiseRequest s).port = some (requestFor s x) := by
  simp [raiseRequest, hb, h]

theorem paySource_eq (s : State) : paySource s = if s.w.op = 1 then .din else .dout := by
  simp only [paySource, isEncrypt_iff]

/-- Settles O8: the port after a wait, phase by phase, and the packing of what a phase sends. -/
theorem waitingLeavesOnlyTheRequest : Obligations.WaitingLeavesOnlyTheRequest := by
  intro s ts hturn nonce src
  obtain ⟨q, hq⟩ := raiseRequest_eq (withTurns s ts)
  have hport : (raiseRequest (withTurns s ts)).port = q := by rw [hq]
  refine ⟨q, (step_wait hturn).trans (congrArg _ hq), ?_⟩
  intro sends
  have sent (hb : s.regs.status.busy = true) {x : Block} (hx : cipherInput s = some x) : sends x :=
    ⟨requestFor s x, hport ▸ raiseRequest_port_some (s := withTurns s ts) hb hx, rfl,
      fun j hj => requestFor_block s x hj, fun j hj => requestFor_key s x hj⟩
  have hpay : macPayInput s = xorBlock s.w.x (ppBlock s src s.w.idx.toNat) := by rw [macPayInput, paySource_eq]
  exact ⟨fun hb => hport ▸ raiseRequest_port_idle (s := withTurns s ts) hb, fun hb =>
    ⟨fun hp => sent hb (cipherInput_macB0 hp),
     fun hp => sent hb (cipherInput_macAad hp),
     fun hp => sent hb (hpay ▸ cipherInput_macPay hp),
     fun hp => sent hb (cipherInput_ksS0 hp),
     fun hp => sent hb (cipherInput_ksBlk hp),
     fun h2 h3 h4 h6 h7 =>
      hport ▸ raiseRequest_port_none (s := withTurns s ts) (cipherInput_eq_none h2 h3 h4 h6 h7)⟩⟩

end Sys2Proof.Machine
end

section
/-! PROOFS. The word of a transaction (R91 to R95): what it was packed from decides what it decodes to. -/

namespace Sys2Proof.Machine

/-- The fields of a packed transaction are the ones it was packed from (R91). -/
theorem htx_fields {rw : Nat} (hrw : rw < 2) (space : Space) (off : BitVec 64) (data : Byte) :
    let w := BitVec.ofNat 75 (htxWord rw space off.toNat data.toNat)
    htxIsWrite w = decide (rw = 1) ∧ htxSpace w = space ∧ htxOff w = off ∧ htxData w = data := by
  intro w
  obtain ⟨hlt, hoff, hspace⟩ := Laws.FitsItsRow.htxWord_fits rw space hrw off.isLt data.isLt
  have hw : w.toNat = htxWord rw space off.toNat data.toNat := by
    rw [BitVec.toNat_ofNat, Nat.mod_eq_of_lt hlt]
  have hcode : space.code < 4 := by cases space <;> decide
  have hofBits : Space.ofBits (BitVec.ofNat 2 space.code) = space := by cases space <;> rfl
  have := off.isLt
  have := data.isLt
  have hlow : htxWord rw space off.toNat data.toNat % 2 ^ 8 = data.toNat := by
    unfold htxWord
    omega
  refine ⟨?_, ?_, BitVec.eq_of_toNat_eq ?_, BitVec.eq_of_toNat_eq ?_⟩
  · have hbit : (w.extractLsb' 74 1).toNat = rw := by
      rw [BitVec.extractLsb'_toNat, hw, Nat.shiftRight_eq_div_pow]
      omega
    simp [htxIsWrite, ← BitVec.toNat_inj, hbit]
  · have hbits : w.extractLsb' 72 2 = BitVec.ofNat 2 space.code := by
      rw [← BitVec.toNat_inj, BitVec.extractLsb'_toNat, hw, Nat.shiftRight_eq_div_pow, hspace, BitVec.toNat_ofNat]
      omega
    rw [htxSpace, hbits, hofBits]
  · rw [htxOff, BitVec.extractLsb'_toNat, hw, Nat.shiftRight_eq_div_pow, hoff]
    omega
  · rw [htxData, BitVec.extractLsb'_toNat, hw, Nat.shiftRight_zero, hlow]

/-- A packed write decodes by its fields (R94). -/
theorem decodeHtx_write (space : Space) (off : BitVec 64) (data : Byte) :
    decodeHtx (BitVec.ofNat 75 (htxWord 1 space off.toNat data.toNat)) = decodeWrite space off data := by
  obtain ⟨hwrite, hspace, hoff, hdata⟩ := htx_fields (by decide : 1 < 2) space off data
  simp [decodeHtx, hwrite, hspace, hoff, hdata]

/-- A packed read decodes by its fields, whatever its DATA (R95). -/
theorem decodeHtx_read (space : Space) (off : BitVec 64) (data : Byte) :
    decodeHtx (BitVec.ofNat 75 (htxWord 0 space off.toNat data.toNat)) = decodeRead space off := by
  obtain ⟨hwrite, hspace, hoff, -⟩ := htx_fields (by decide : 0 < 2) space off data
  simp [decodeHtx, hwrite, hspace, hoff]

/-- A command that is none of the three assigned ones is reserved (R93). -/
theorem decodeCommand_rsvd {data : Byte} (h : 3 ≤ data.toNat) : decodeCommand data = .cmdRsvd data := by
  unfold decodeCommand
  split
  case h_4 => rfl
  all_goals omega

/-- A write of REG that names neither CMD nor STATUS is a plain one (R94). -/
theorem decodeWrite_reg {off : BitVec 64} (h : 2 ≤ off.toNat) (data : Byte) :
    decodeWrite .reg off data = .regWr off data := by
  rw [decodeWrite, if_neg (by omega), if_neg (by omega)]

/-- The bus's word of a well-formed host instruction decodes to that instruction. -/
theorem decodeHtx_encodeHtx {i : Instr} (hwf : i.wellFormed = true) (hhost : i.isHost = true) :
    decodeHtx (encodeHtx i) = i := by
  cases i with
  | cmdNop => exact decodeHtx_write .reg 0 0
  | encrypt => exact decodeHtx_write .reg 0 1
  | decrypt => exact decodeHtx_write .reg 0 2
  | cmdRsvd data => exact (decodeHtx_write .reg 0 data).trans (decodeCommand_rsvd (of_decide_eq_true hwf))
  | statusW data => exact decodeHtx_write .reg 1 data
  | regWr off data => exact (decodeHtx_write .reg off data).trans (decodeWrite_reg (of_decide_eq_true hwf) data)
  | regRd off => exact decodeHtx_read .reg off 0
  | aadWr off data => exact decodeHtx_write .aad off data
  | aadRd off => exact decodeHtx_read .aad off 0
  | dinWr off data => exact decodeHtx_write .din off data
  | dinRd off => exact decodeHtx_read .din off 0
  | doutWr off data => exact decodeHtx_write .dout off data
  | doutRd off => exact decodeHtx_read .dout off 0
  | idle | check | macB0 | macAad | macPay | macFinal | ksS0 | ksBlk | tagMask => cases hhost
  | ctCompare | fin | errfin | phaseRsvd => cases hhost

end Sys2Proof.Machine
end

section
/-! PROOFS. The transactions of spec/20_memory.md: what the buffers hold after a write and what a read returns, and what
a busy engine keeps. -/

namespace Sys2Proof.Machine

variable {s t : State}

/-! ### The HOST's turn -/

/-- Settles O5: the HOST's turn with a transaction and without one, and the word of an instruction decoded. -/
theorem stepRunsTheDecodedTransaction : Obligations.StepRunsTheDecodedTransaction := by
  intro s ts hturn
  refine ⟨fun w hs hhost => step_host_cons hturn hhost, fun i hs hwf hi hhost => ?_, step_host_nil hturn⟩
  rw [step_host_cons hturn hhost, decodeHtx_encodeHtx hwf hi]

/-! ### The canonical form of the buffers -/

theorem HostEffect.keeps_canonical (he : HostEffect s t) (h : s.buf.canonical) : t.buf.canonical := by
  cases he with
  | none | wign | answer | accept | reg => exact h
  | buffer b off v => exact store_canonical h b off v

theorem EngineEffect.keeps_canonical (he : EngineEffect s t) (h : s.buf.canonical) : t.buf.canonical := by
  cases he with
  | idle | reject | begin | fin | errfin => exact h
  | work _ _ hw => exact hw.canonical h

theorem Buffers.canonical_unspecified : Buffers.unspecified.canonical :=
  Buffers.canonical_iff.mpr reset_wf

theorem TurnEffect.keeps_canonical {turn : Turn} (he : TurnEffect s turn t) (h : s.buf.canonical) :
    t.buf.canonical := by
  cases he with
  | host he => exact he.keeps_canonical h
  | engine _ he => exact he.keeps_canonical h
  | rest => exact h
  | wait => exact (raiseRequest_buf s).symm ▸ h
  | reset => exact Buffers.canonical_unspecified

/-- Settles O45: of the effects of a turn only a byte the HOST stores and KS_BLK's `MemWrite` change a buffer, reset
aside, and both keep its offsets rising. -/
theorem stepKeepsBuffersCanonical : Obligations.StepKeepsBuffersCanonical := by
  intro s t h hstep
  obtain ⟨e, -, he⟩ := step_effect hstep
  exact he.keeps_canonical h

/-! ### A host write of a buffer byte -/

/-- A buffer write changes the buffers alone. -/
theorem hostStore_eq (s : State) (b : Buffer) (off : Nat) (v : Byte) :
    hostStore s b off v = { s with buf := (hostStore s b off v).buf } := by
  unfold hostStore
  split <;> rfl

/-- What is stored after a buffer write: the byte at an offset below the capacity, everything else as before. -/
theorem stored_hostStore (s : State) (b b' : Buffer) (off a : Nat) (v : Byte) :
    stored (hostStore s b off v) b' a = if b' = b ∧ a = off ∧ a < s.capOf b then some v else stored s b' a := by
  unfold hostStore
  split
  case isTrue hin =>
    rw [stored_store]
    refine if_congr ⟨?_, ?_⟩ rfl rfl
    · rintro ⟨hb, rfl⟩
      exact ⟨hb, rfl, hin⟩
    · rintro ⟨hb, ha, -⟩
      exact ⟨hb, ha⟩
  case isFalse hout =>
    rw [if_neg]
    rintro ⟨-, rfl, hin⟩
    exact hout hin

/-- AAD_WR and DIN_WR of an idle engine are the buffer write of their buffer (R63, R64). -/
theorem exec_bufferWr_idle {off : BitVec 64} {data : Byte} {i : Instr} {b : Buffer} (hidle : s.regs.status.busy = false)
    (hi : i = .aadWr off data ∧ b = .aad ∨ i = .dinWr off data ∧ b = .din) :
    exec i s = .next (hostStore s b off.toNat data) := by
  obtain ⟨rfl, rfl⟩ | ⟨rfl, rfl⟩ := hi
  all_goals exact congrArg Host.Outcome.next (hostWrite_idle hidle _)

/-- Settles O20: what the two instructions leave stored. -/
theorem bufferWriteStoresOneByte : Obligations.BufferWriteStoresOneByte := by
  intro s off data i b hidle hi
  refine ⟨(hostStore s b off.toNat data).buf, ?_, fun b' a => ?_⟩
  · rw [← hostStore_eq, exec_bufferWr_idle hidle hi]
  · rw [← hostStore_eq, stored_hostStore]

/-! ### A host read of a buffer byte -/

/-- What a host read of a buffer finds: as `hostLoad`, but for DOUT of a busy engine, which is unspecified (R69). -/
def bufferAnswer (s : State) (b : Buffer) (off : Nat) : Option Byte :=
  if b = .dout ∧ s.regs.status.busy = true then none else hostLoad s b off

theorem bufferAnswer_eq_hostLoad {b : Buffer} (h : b ≠ .dout ∨ s.regs.status.busy = false) (off : Nat) :
    bufferAnswer s b off = hostLoad s b off :=
  if_neg fun ⟨hb, hbusy⟩ => h.elim (· hb) fun hidle => Bool.false_ne_true (hidle.symm.trans hbusy)

/-- The three buffer reads answer with what they find (R63 to R65). -/
theorem exec_bufferRd {off : BitVec 64} {i : Instr} {b : Buffer}
    (hi : i = .aadRd off ∧ b = .aad ∨ i = .dinRd off ∧ b = .din ∨ i = .doutRd off ∧ b = .dout) :
    exec i s = .next (respond s (bufferAnswer s b off.toNat)) := by
  obtain ⟨rfl, rfl⟩ | ⟨rfl, rfl⟩ | ⟨rfl, rfl⟩ := hi
  · rfl
  · rfl
  · simp [exec, execDoutRd, bufferAnswer]

theorem hostLoad_of_capOf_le {b : Buffer} {off : Nat} (h : s.capOf b ≤ off) : hostLoad s b off = some 0 :=
  if_neg (Nat.not_lt.mpr h)

theorem hostLoad_of_lt_capOf {b : Buffer} {off : Nat} (h : off < s.capOf b) : hostLoad s b off = stored s b off :=
  if_pos h

/-- Settles O21: the answer, by what the read finds at the offset. -/
theorem bufferReadReturnsTheStoredByte : Obligations.BufferReadReturnsTheStoredByte := by
  intro s off i b hi
  obtain ⟨v, d, hanswer, hsome, -⟩ := respond_eq s (bufferAnswer s b off.toNat)
  refine ⟨v, d, (exec_bufferRd hi).trans (congrArg _ hanswer), fun hfree => ?_⟩
  rw [bufferAnswer_eq_hostLoad hfree] at hsome
  exact ⟨fun hcap => hsome 0 (hostLoad_of_capOf_le hcap),
    fun x hcap hx => hsome x ((hostLoad_of_lt_capOf hcap).trans hx)⟩

/-- A read of the byte that a buffer write stored below the capacity finds that byte. -/
theorem hostLoad_hostStore {b : Buffer} {off : Nat} (h : off < s.capOf b) (v : Byte) :
    hostLoad (hostStore s b off v) b off = some v := by
  have hcap : (hostStore s b off v).capOf b = s.capOf b := by rw [hostStore_eq]; exact capOf_congr rfl b
  rw [hostLoad_of_lt_capOf (hcap ▸ h), stored_hostStore, if_pos ⟨rfl, rfl, h⟩]

/-- So the answer to that read is the byte written. -/
theorem returned_after_hostStore {b : Buffer} (hb : b ≠ .dout) {off : Nat} (h : off < s.capOf b) (v : Byte) :
    (respond (hostStore s b off v) (bufferAnswer (hostStore s b off v) b off)).env.returned = v :: s.env.returned := by
  rw [bufferAnswer_eq_hostLoad (.inl hb), hostLoad_hostStore h, hostStore_eq]
  rfl

/-- Settles O22: the two buffers the HOST writes. -/
theorem bufferReadAfterWrite : Obligations.BufferReadAfterWrite := by
  intro s off data hidle
  constructor
  · intro hcap
    exact ⟨_, _, exec_bufferWr_idle hidle (.inl ⟨rfl, rfl⟩), exec_bufferRd (.inl ⟨rfl, rfl⟩),
      returned_after_hostStore (by decide) hcap data⟩
  · intro hcap
    exact ⟨_, _, exec_bufferWr_idle hidle (.inr ⟨rfl, rfl⟩), exec_bufferRd (.inr (.inl ⟨rfl, rfl⟩)),
      returned_after_hostStore (by decide) hcap data⟩

/-! ### A busy engine -/

/-- Settles O17: each of these writes goes through the gate of R68. -/
theorem busyEngineIgnoresWrites : Obligations.BusyEngineIgnoresWrites := by
  intro s i hi hbusy
  have gated {e : State} (h : exec i s = .next (hostWrite s e)) :
      exec i s = .next { s with regs := { s.regs with status := { s.regs.status with wign := true } } } :=
    h.trans (congrArg _ (hostWrite_busy hbusy e))
  cases i with
  | cmdNop | encrypt | decrypt | cmdRsvd | regWr | aadWr | dinWr | doutWr => exact gated rfl
  | statusW | regRd | aadRd | dinRd | doutRd => cases hi
  | idle | check | macB0 | macAad | macPay | macFinal | ksS0 | ksBlk | tagMask => cases hi
  | ctCompare | fin | errfin | phaseRsvd => cases hi

/-- While BUSY = 1 a host transaction reaches WIGN and the surroundings alone (R68, R74). -/
theorem HostEffect.of_busy (he : HostEffect s t) (hbusy : s.regs.status.busy = true) :
    ∃ (wign : Bool) (env : Surroundings),
      t = { s with regs := { s.regs with status := { s.regs.status with wign := wign } }, env := env } ∧
        env.resets = s.env.resets := by
  cases he with
  | none => exact ⟨s.regs.status.wign, s.env, rfl, rfl⟩
  | wign b => exact ⟨b, s.env, rfl, rfl⟩
  | answer r d => exact ⟨s.regs.status.wign, { s.env with returned := r, draws := d }, rfl, rfl⟩
  | accept v hidle | reg off v hidle | buffer b off v hidle => simp [hbusy] at hidle

/-- A micro-operation changes of the registers STATUS, ERR and TAGOUT, and of the buffers DOUT. -/
theorem EngineEffect.frame (he : EngineEffect s t) :
    t.regs = { s.regs with status := t.regs.status, err := t.regs.err, tagOut := t.regs.tagOut } ∧
      t.buf = { s.buf with dout := t.buf.dout } := by
  cases he with
  | idle | reject | begin | fin | errfin => exact ⟨rfl, rfl⟩
  | work _ _ hw =>
    constructor
    · rw [hw.regs]
    · rw [hw.buf]
      split
      · obtain ⟨m, hm⟩ := memWrite_eq (answered s) .dout (ksOffset s) (ksBytes s)
        rw [hm]
        rfl
      · rfl

/-- Settles O49: the frame of a micro-operation leaves out every input, and the other turns, reset aside, change only
WIGN, the port and the surroundings. -/
theorem inputsFrozenWhileBusy : Obligations.InputsFrozenWhileBusy := by
  intro s t turn ts hturn hreset hstep hbusy
  obtain ⟨e, hresets, he⟩ := step_effect_planned hturn hstep
  cases he with
  | host he =>
    obtain ⟨wign, env, rfl, henv⟩ := he.of_busy hbusy
    exact ⟨by simp, fun _ => ⟨wign, s.port, env, rfl, henv.trans hresets⟩⟩
  | engine _ he =>
    obtain ⟨hregs, hbuf⟩ := he.frame
    rw [hregs, hbuf]
    exact ⟨by simp, fun h => absurd rfl h⟩
  | rest hidle => cases hbusy.symm.trans hidle
  | wait =>
    obtain ⟨q, hq⟩ := raiseRequest_eq { s with env := e }
    rw [hq]
    exact ⟨by simp, fun _ => ⟨s.regs.status.wign, q, e, rfl, hresets⟩⟩
  | reset => exact absurd rfl hreset

end Sys2Proof.Machine
end

section
/-! PROOFS. Decoding and encoding of both levels (R90 to R95, R110, R111 of spec/30_encoding.md), and their form in
bytes. -/

namespace Sys2Proof.Machine

/-! ### The word of a transaction -/

theorem Space.code_ofBits (b : BitVec 2) : (Space.ofBits b).code = b.toNat := by
  revert b
  decide

/-- RW (R91) as a number. -/
theorem htxIsWrite_bit (w : BitVec 75) : (if htxIsWrite w then 1 else 0) = w.toNat / 2 ^ 74 := by
  have hbit : (w.extractLsb' 74 1).toNat = w.toNat / 2 ^ 74 := by
    rw [BitVec.extractLsb'_toNat, Nat.shiftRight_eq_div_pow]
    omega
  have hlt : w.toNat / 2 ^ 74 < 2 := by omega
  simp only [htxIsWrite, decide_eq_true_eq, ← BitVec.toNat_inj, hbit, BitVec.toNat_ofNat]
  split <;> omega

/-- The four fields of R91 fill the word: it is packed from them. -/
theorem toNat_eq_htxWord (w : BitVec 75) :
    w.toNat = htxWord (if htxIsWrite w then 1 else 0) (htxSpace w) (htxOff w).toNat (htxData w).toNat := by
  rw [htxIsWrite_bit, htxWord, htxSpace, htxOff, htxData, Space.code_ofBits]
  simp only [BitVec.extractLsb'_toNat, Nat.shiftRight_eq_div_pow]
  omega

/-- A command is encoded as its DATA, assigned or reserved (R93). -/
theorem encodeWord_decodeCommand (data : Byte) : encodeWord (decodeCommand data) = htxWord 1 .reg 0 data.toNat := by
  unfold decodeCommand
  split
  case h_1 h | h_2 h | h_3 h => rw [h]; rfl
  case h_4 => rfl

/-- Encoding what a write decodes to packs its fields again (R94). -/
theorem encodeWord_decodeWrite (space : Space) (off : BitVec 64) (data : Byte) :
    encodeWord (decodeWrite space off data) = htxWord 1 space off.toNat data.toNat := by
  cases space with
  | reg =>
    rw [decodeWrite]
    split_ifs with h0 h1
    · rw [encodeWord_decodeCommand, h0]
    · rw [encodeWord, h1]
    · rfl
  | aad | din | dout => rfl

/-- Encoding what a read decodes to packs its fields again, with DATA clear (R95). -/
theorem encodeWord_decodeRead (space : Space) (off : BitVec 64) :
    encodeWord (decodeRead space off) = htxWord 0 space off.toNat 0 := by
  cases space <;> rfl

/-- Encoding a decoded transaction gives its word, but for the DATA of a read. -/
theorem encodeWord_decodeHtx (w : BitVec 75) :
    encodeWord (decodeHtx w) = if htxIsWrite w then w.toNat else w.toNat - w.toNat % 256 := by
  have hw := toNat_eq_htxWord w
  cases hwrite : htxIsWrite w with
  | true =>
    rw [hwrite, if_pos rfl] at hw
    rw [decodeHtx, hwrite, if_pos rfl, encodeWord_decodeWrite, if_pos rfl, hw]
  | false =>
    rw [hwrite, if_neg Bool.false_ne_true, htxWord] at hw
    rw [decodeHtx, hwrite, if_neg Bool.false_ne_true, encodeWord_decodeRead, if_neg Bool.false_ne_true, htxWord]
    have := (htxData w).isLt
    omega

theorem encodeWord_decodeHtx_lt (w : BitVec 75) : encodeWord (decodeHtx w) < 2 ^ 75 := by
  have := w.isLt
  rw [encodeWord_decodeHtx]
  split <;> omega

/-- A write of CMD is well-formed: the reserved command stands for none of the assigned values (R93). -/
theorem decodeCommand_wellFormed (data : Byte) : (decodeCommand data).wellFormed = true := by
  unfold decodeCommand
  split
  case h_4 h0 h1 h2 => exact decide_eq_true (by simp only [imp_false] at h0 h1 h2; omega)
  all_goals rfl

theorem decodeHtx_wellFormed (w : BitVec 75) : (decodeHtx w).wellFormed = true := by
  unfold decodeHtx
  split
  · cases htxSpace w with
    | reg =>
      rw [decodeWrite]
      split_ifs
      · exact decodeCommand_wellFormed _
      · rfl
      · exact decide_eq_true (by omega)
    | aad | din | dout => rfl
  · cases htxSpace w <;> rfl

/-- Settles O3: the fields fill the word, and each of them is encoded again. -/
theorem everyTransactionDecodes : Obligations.EveryTransactionDecodes := by
  intro w
  refine ⟨decodeHtx_wellFormed w, decodeHtx_isHost w, ?_⟩
  rw [encodeHtx, BitVec.toNat_ofNat, Nat.mod_eq_of_lt (encodeWord_decodeHtx_lt w), encodeWord_decodeHtx]

/-- Settles O4: a packed word decodes by its fields, and each clause is one branch of R94. -/
theorem transactionDecodesByItsFields : Obligations.TransactionDecodesByItsFields := by
  intro space off data
  dsimp only
  rw [decodeHtx_write, decodeHtx_read]
  have hcmd (hoff : off.toNat = 0) : decodeWrite .reg off data = decodeCommand data := if_pos hoff
  refine ⟨?cmdNop, ?encrypt, ?decrypt, ?cmdRsvd, ?statusW, ?regWr, ?_, ?_, ?_, ?_, ?_, ?_, ?_⟩
  case cmdNop | encrypt | decrypt => rintro rfl hoff rfl; exact hcmd hoff
  case cmdRsvd => rintro rfl hoff hdata; exact (hcmd hoff).trans (decodeCommand_rsvd hdata)
  case statusW => rintro rfl hoff; rw [decodeWrite, if_neg (by omega), if_pos hoff]
  case regWr => rintro rfl hoff; exact decodeWrite_reg hoff data
  all_goals (rintro rfl; rfl)

/-! ### The codes of W.PHASE -/

/-- The code of a micro-operation decodes to it (R110, R111). -/
theorem decodePhase_encodePhase {i : Instr} (h : i.isHost = false) : decodePhase (encodePhase i) = i := by
  cases i with
  | idle | check | macB0 | macAad | macPay | macFinal | ksS0 | ksBlk | tagMask | ctCompare | fin | errfin => rfl
  | phaseRsvd low => revert low; decide
  | cmdNop | encrypt | decrypt | cmdRsvd | statusW | regWr | regRd => cases h
  | aadWr | aadRd | dinWr | dinRd | doutWr | doutRd => cases h

theorem encodeWord_decodePhase (c : BitVec 4) : encodeWord (decodePhase c) = c.toNat := by
  revert c
  decide

/-- The codes above ERRFIN are the reserved ones (R111). -/
theorem decodePhase_rsvd {c : BitVec 4} (h : 0xC ≤ c.toNat) : decodePhase c = .phaseRsvd (c.extractLsb' 0 2) := by
  revert c
  decide

/-- Settles O42: such a code decodes to PHASE_RSVD, whose meaning is the fault. -/
theorem reservedPhaseIsStuck : Obligations.ReservedPhaseIsStuck := by
  intro s c hc
  rw [decodePhase_rsvd hc]
  rfl

/-! ### The form in bytes (log 12) -/

@[simp] theorem leBytes_length (k v : Nat) : (leBytes k v).length = k := by
  induction k generalizing v with
  | zero => rfl
  | succ k ih => rw [leBytes, List.length_cons, ih]

/-- The value of the `k` low bytes of a number. -/
theorem leValue_leBytes (k v : Nat) : leValue (leBytes k v) = v % 256 ^ k := by
  induction k generalizing v with
  | zero => simp [leBytes, leValue, Nat.mod_one]
  | succ k ih => rw [Nat.pow_succ', Nat.mod_mul, leBytes, leValue, ih, BitVec.toNat_ofNat]

/-- The ten bytes of a transaction's word. -/
theorem decode_transaction {v : Nat} (h : v < 2 ^ 75) :
    decode (leBytes 10 v) = .ok (decodeHtx (BitVec.ofNat 75 v)) := by
  have hv : leValue (leBytes 10 v) = v := by rw [leValue_leBytes, Nat.mod_eq_of_lt (by omega)]
  rw [decode, leBytes_length, hv, if_neg (by decide), if_pos rfl, if_pos h]

/-- The one byte of a code of W.PHASE. -/
theorem decode_phase {v : Nat} (h : v < 2 ^ 4) : decode (leBytes 1 v) = .ok (decodePhase (BitVec.ofNat 4 v)) := by
  have hv : leValue (leBytes 1 v) = v := by rw [leValue_leBytes, Nat.mod_eq_of_lt (by omega)]
  rw [decode, leBytes_length, hv, if_pos rfl, if_pos h]

/-- Settles O2: by level; the word of an instruction fits its format because it is one that decoded. -/
theorem decodeOfEncode : Obligations.DecodeOfEncode := by
  intro i hwf
  cases hhost : i.isHost with
  | true =>
    have hdecode := decodeHtx_encodeHtx hwf hhost
    have hlt : encodeWord i < 2 ^ 75 := hdecode ▸ encodeWord_decodeHtx_lt (encodeHtx i)
    rw [encode, hhost, if_pos rfl, decode_transaction hlt, ← encodeHtx, hdecode]
  | false =>
    have hdecode := decodePhase_encodePhase hhost
    have hlt : encodeWord i < 2 ^ 4 := by
      rw [← hdecode, encodeWord_decodePhase]
      exact (encodePhase i).isLt
    rw [encode, hhost, if_neg Bool.false_ne_true, decode_phase hlt, ← encodePhase, hdecode]

/-- Settles O1: the decoders evaluated on the fixed words. -/
theorem writtenOutWordsDecode : Obligations.WrittenOutWordsDecode := by
  unfold Obligations.WrittenOutWordsDecode
  decide

end Sys2Proof.Machine
end

section
/-! PROOFS. The formats of B0, of the counter block and of the AAD length (R96 to R102 of spec/30_encoding.md). -/

namespace Sys2Proof.Machine

/-! ### A block of flags, nonce and number -/

section Format

variable {nonce : List Byte} {l : Nat}

theorem format_flags (f : Byte) (v : Nat) : byteAt (blockOf (f :: nonce ++ be l v)) 0 = f :=
  byteAt_blockOf _ (by decide)

variable (hlen : nonce.length + l = 15) (f : Byte) (v : Nat)
include hlen

/-- Because 1 + N + L = 16, the three fields fill the block exactly (R96). -/
theorem format_toList : (blockOf (f :: nonce ++ be l v)).toList = f :: nonce ++ be l v :=
  blockOf_toList (by rw [List.length_append, List.length_cons, be_length]; omega)

theorem format_nonce {j : Nat} (hj : j < nonce.length) :
    byteAt (blockOf (f :: nonce ++ be l v)) (1 + j) = nonce.getD j 0 := by
  rw [byteAt_blockOf _ (by omega), Nat.add_comm, List.cons_append, List.getD_cons_succ, List.getD_append _ _ _ _ hj]

theorem format_number (hv : v < 2 ^ (8 * l)) :
    packBytes ((blockOf (f :: nonce ++ be l v)).toList.drop (1 + nonce.length)) = v := by
  have hdrop : (f :: nonce ++ be l v).drop (1 + nonce.length) = be l v :=
    List.drop_left' (by rw [List.length_cons, Nat.add_comm])
  rw [format_toList hlen, hdrop, packBytes_be_of_lt hv]

end Format

/-! ### B0 -/

/-- The four fields of the flags byte of B0 (R97, R98): none of them reaches into the next. -/
theorem b0Flags_fields (a : Nat) {m l : Nat} (hm : (m - 2) / 2 < 8) (hl : l - 1 < 8) :
    (b0Flags a m l).getLsbD 7 = false ∧ (b0Flags a m l).getLsbD 6 = decide (0 < a) ∧
      ((b0Flags a m l).extractLsb' 3 3).toNat = (m - 2) / 2 ∧ ((b0Flags a m l).extractLsb' 0 3).toNat = l - 1 := by
  have value : (b0Flags a m l).toNat = 64 * (if 0 < a then 1 else 0) + 8 * ((m - 2) / 2) + (l - 1) := by
    rw [b0Flags, BitVec.toNat_ofNat, Nat.mod_eq_of_lt (by split <;> omega)]
  simp only [BitVec.getLsbD, BitVec.extractLsb'_toNat, Nat.testBit_eq_decide_div_mod_eq, Nat.shiftRight_eq_div_pow,
    value]
  refine ⟨decide_eq_false ?_, decide_eq_decide.mpr ?_, ?_, ?_⟩ <;> split <;> omega

/-- Settles O24: the fields of the flags byte, then those of the block. -/
theorem initialBlockLayout : Obligations.InitialBlockLayout := by
  intro nonce a p m l hlen hl2 hl8 hm hp b
  have hm' : (m - 2) / 2 < 8 := by
    simp only [List.mem_cons, List.not_mem_nil, or_false] at hm
    omega
  have hflags : byteAt b 0 = b0Flags a m l := format_flags _ p
  obtain ⟨h7, h6, h53, h20⟩ := b0Flags_fields a hm' (show l - 1 < 8 by omega)
  rw [hflags]
  exact ⟨h7, h6, h53, h20, fun j hj => format_nonce hlen _ p hj, format_number hlen _ p hp⟩

/-! ### The counter block -/

/-- Settles O25: the fields of the block; the counter is at most the payload length, and it is read back from
the block. -/
theorem counterBlockLayout : Obligations.CounterBlockLayout := by
  intro nonce l i hlen hl2 hl8
  have counter {k : Nat} (hk : k < 2 ^ (8 * l)) :
      packBytes ((fmtCtr nonce l k).toList.drop (1 + nonce.length)) = k := format_number hlen _ k hk
  refine ⟨fun hi => ⟨format_flags _ i, fun j hj => format_nonce hlen _ i hj, counter hi⟩, fun p hp hi => ?_,
    fun k hi hk heq => ?_⟩
  · have hround : payBlocks p ≤ p := by
      unfold payBlocks ceil16
      omega
    omega
  · rw [← counter hi, heq, counter hk]

/-! ### The AAD length -/

/-- Settles O26: one form of R101 per range; the length is the value of the bytes after the marker. -/
theorem aadLengthHeader : Obligations.AadLengthHeader := by
  intro a ha
  refine ⟨fun h0 => if_pos h0, fun hpos hshort => ?_, fun hshort hmid => ?_, fun hlong => ?_⟩
  · have hform : aadHeader a = be 2 a := by rw [aadHeader, if_neg (by omega), if_pos hshort]
    rw [hform]
    exact ⟨be_length 2 a, packBytes_be_of_lt (by omega)⟩
  · have hform : aadHeader a = 0xFF :: 0xFE :: be 4 a := by
      rw [aadHeader, if_neg (by omega), if_neg (by omega), if_pos hmid]
    rw [hform]
    exact ⟨by simp, rfl, packBytes_be_of_lt hmid⟩
  · have hform : aadHeader a = 0xFF :: 0xFF :: be 8 a := by
      rw [aadHeader, if_neg (by omega), if_neg (by omega), if_neg (by omega)]
    rw [hform]
    exact ⟨by simp, rfl, packBytes_be_of_lt ha⟩

end Sys2Proof.Machine
end

section
/-! PROOFS. The blocks computed from a buffer are the padded byte strings (R126 to R130 of
spec/41_block_formatter.md). -/

namespace Sys2Proof.Machine

/-! ### Reading a padded string byte by byte -/

@[simp] theorem zeros_length (k : Nat) : (zeros k).length = k := List.length_replicate

/-- Zeros at the end of a string do not show in its bytes, which are zero there anyway. -/
theorem append_zeros_getD (l : List Byte) (k q : Nat) : (l ++ zeros k).getD q 0 = l.getD q 0 := by
  by_cases hq : q < l.length
  · rw [List.getD_append _ _ _ _ hq]
  · have hq := Nat.le_of_not_lt hq
    rw [List.getD_append_right _ _ _ _ hq, List.getD_eq_default _ _ hq, zeros,
      List.getD_eq_getElem?_getD, List.getElem?_getD_replicate_default_eq]

theorem memRead_getD_eq_ite (s : State) (b : Buffer) (n q : Nat) :
    (memRead s b 0 n).getD q 0 = if q < n then content s b q else 0 := by
  split
  · rw [memRead_getD s b 0 ‹_›, Nat.zero_add]
  · exact List.getD_eq_default _ _ (by simpa using ‹¬ q < n›)

/-! ### A string and its blocks -/

theorem blockOf_take_drop_toList {l : List Byte} {k : Nat} (h : 16 * (k + 1) ≤ l.length) :
    (blockOf ((l.drop (16 * k)).take 16)).toList = (l.drop (16 * k)).take 16 :=
  blockOf_toList (by simp; omega)

/-- The first `r` blocks of a string are its first `16 r` bytes, by appending one block at a time. -/
theorem blocksOf_flatMap_toList {l : List Byte} {r : Nat} (h : 16 * r ≤ l.length) :
    (blocksOf r l).flatMap Vector.toList = l.take (16 * r) := by
  unfold blocksOf
  induction r with
  | zero => rfl
  | succ r ih =>
    rw [List.range_succ, List.map_append, List.flatMap_append, ih (by omega), Nat.mul_succ, List.take_add]
    simp [blockOf_take_drop_toList h]

/-- A block function that reads the bytes of a string gives the blocks of the string (R150). -/
theorem blocksOf_eq_map {l : List Byte} {g : Nat → Block}
    (h : ∀ k j, j < 16 → byteAt (g k) j = l.getD (16 * k + j) 0) (r : Nat) : blocksOf r l = (List.range r).map g := by
  refine List.map_congr_left fun k _ => vector_ext_byteAt fun j hj => ?_
  rw [byteAt_blockOf _ hj, h k j hj]
  simp [List.getD_eq_getElem?_getD, hj]

/-- Block by block the bytes of a string of whole blocks are the string. -/
theorem flatMap_toList_of_bytes {l : List Byte} {r : Nat} {g : Nat → Block} (hlen : 16 * r = l.length)
    (h : ∀ k j, j < 16 → byteAt (g k) j = l.getD (16 * k + j) 0) :
    (List.range r).flatMap (fun k => (g k).toList) = l := by
  rw [← List.flatMap_map g Vector.toList, ← blocksOf_eq_map h, blocksOf_flatMap_toList hlen.le, hlen, List.take_length]

/-! ### The formatted AAD -/

theorem formattedAad_length (aad : List Byte) : (formattedAad aad).length = 16 * aadBlocks aad.length := by
  unfold formattedAad aadBlocks
  split
  · rfl
  · have hround := sixteen_mul_ceil16 ((aadHeader aad.length).length + aad.length)
    simp only [List.length_append, zeros_length]
    omega

theorem aadBlocks_pos {a : Nat} (h : 0 < a) : 0 < aadBlocks a := by
  have hround := sixteen_mul_ceil16 ((aadHeader a).length + a)
  rw [aadBlocks, if_neg h.ne']
  omega

/-- The empty AAD is no exception: its header is empty too, so nothing but zeros can be read (R126). -/
theorem formattedAad_getD (aad : List Byte) (q : Nat) :
    (formattedAad aad).getD q 0 = (aadHeader aad.length ++ aad).getD q 0 := by
  by_cases hempty : aad.length = 0
  · obtain rfl := List.length_eq_zero_iff.mp hempty
    rfl
  · rw [formattedAad, if_neg hempty, append_zeros_getD]

/-- FA_BYTE(q) is byte `q` of the formatted AAD, and zero beyond its end (R128). -/
theorem faByte_eq_getD (s : State) (q : Nat) :
    faByte s q = (formattedAad (memRead s .aad 0 (aadLen s))).getD q 0 := by
  rw [formattedAad_getD, memRead_length, faByte]
  by_cases hq : q < (aadHeader (aadLen s)).length
  · rw [if_pos hq, List.getD_append _ _ _ _ hq]
  · have hrange : q < (aadHeader (aadLen s)).length + aadLen s ↔ q - (aadHeader (aadLen s)).length < aadLen s := by
      omega
    simp only [if_neg hq, List.getD_append_right _ _ _ _ (Nat.le_of_not_lt hq), memRead_getD_eq_ite, hrange]

theorem byteAt_faBlock (s : State) (k : Nat) {j : Nat} (h : j < 16) :
    byteAt (faBlock s k) j = (formattedAad (memRead s .aad 0 (aadLen s))).getD (16 * k + j) 0 := by
  rw [faBlock, byteAt_ofFn, dif_pos h, faByte_eq_getD]

theorem sixteen_mul_nA (s : State) : 16 * nA s = (formattedAad (memRead s .aad 0 (aadLen s))).length := by
  rw [formattedAad_length, memRead_length, nA]

/-- Settles O27: FA_BYTE(q) is byte `q` of the formatted AAD, which is `nA` whole blocks long. -/
theorem formattedAadBlocks : Obligations.FormattedAadBlocks := fun s =>
  ⟨flatMap_toList_of_bytes (sixteen_mul_nA s) fun k _ hj => byteAt_faBlock s k hj, sixteen_mul_nA s, aadBlocks_pos⟩

/-! ### The padded payload -/

theorem paddedPayload_length (payload : List Byte) :
    (paddedPayload payload).length = 16 * payBlocks payload.length := by
  rw [paddedPayload, List.length_append, zeros_length, payBlocks, sixteen_mul_ceil16]

/-- PP_BLOCK(space, k) reads the bytes of the padded payload, and zeros beyond its end (R130). -/
theorem byteAt_ppBlock (s : State) (b : Buffer) (k : Nat) {j : Nat} (h : j < 16) :
    byteAt (ppBlock s b k) j = (paddedPayload (memRead s b 0 (payLen s))).getD (16 * k + j) 0 := by
  rw [ppBlock, byteAt_ofFn, dif_pos h, paddedPayload, append_zeros_getD, memRead_getD_eq_ite]

theorem sixteen_mul_nP (s : State) (b : Buffer) :
    16 * nP s = (paddedPayload (memRead s b 0 (payLen s))).length := by
  rw [paddedPayload_length, memRead_length, nP]

/-- Settles O28: PP_BLOCK reads byte by byte the padded payload, which is `n` whole blocks long. -/
theorem paddedPayloadBlocks : Obligations.PaddedPayloadBlocks := fun s b =>
  ⟨flatMap_toList_of_bytes (sixteen_mul_nP s b) fun k _ hj => byteAt_ppBlock s b k hj, sixteen_mul_nP s b⟩

end Sys2Proof.Machine
end

section
/-! PROOFS. The micro-operations of the CBC-MAC Generator (R151 to R154 of spec/42_cbc_mac.md): the exact next state of
each. -/

namespace Sys2Proof.Machine

/-! ### Where a MAC step leads -/

theorem enterPayload_setX (s : State) (x : Block) :
    enterPayload (setX s x) = { s with
      port := none
      w := if 0 < nP s then { s.w with x := x, idx := 0, phase := 0x4 } else { s.w with x := x, phase := 0x5 } } := by
  have hnP : nP (setX s x) = nP s := rfl
  rw [enterPayload, hnP]
  split <;> rfl

/-- MAC_B0 and MAC_AAD go on to an AAD block while one is left, and to the payload after that (R151, R152). -/
theorem enterAad_or_payload_setX (s : State) (x : Block) (c : Prop) [Decidable c] (k : BitVec 64) :
    (if c then enterAt (setX s x) k 0x3 else enterPayload (setX s x)) = { s with
      port := none
      w := if c then { s.w with x := x, idx := k, phase := 0x3 }
      else if 0 < nP s then { s.w with x := x, idx := 0, phase := 0x4 }
      else { s.w with x := x, phase := 0x5 } } := by
  rw [enterPayload_setX]
  split <;> rfl

/-! ### The micro-operations -/

/-- Settles O32: the AAD begins at block 0, if there is any. -/
theorem macOfTheInitialBlock : Obligations.MacOfTheInitialBlock := fun s =>
  congrArg Host.Outcome.next (enterAad_or_payload_setX s (cipher s (macB0Input s)) (0 < nA s) 0)

/-- Settles O33: the AAD goes on at the next block, if there is one. -/
theorem macOfAnAadBlock : Obligations.MacOfAnAadBlock := fun s =>
  congrArg Host.Outcome.next
    (enterAad_or_payload_setX s (cipher s (macAadInput s)) (s.w.idx.toNat + 1 < nA s) (s.w.idx + 1))

/-- Settles O34: the source of the plaintext is the model's, and MAC_FINAL follows the last block. -/
theorem macOfAPayloadBlock : Obligations.MacOfAPayloadBlock := by
  intro s src x
  have hx : cipher s (macPayInput s) = x := by rw [macPayInput, paySource_eq]; rfl
  refine congrArg Host.Outcome.next ?_
  rw [hx]
  split <;> rfl

/-- Settles O35: T is X with the bytes from M on made zero. -/
theorem macIsTruncated : Obligations.MacIsTruncated := by
  intro s
  refine ⟨keepBytes (tagLen s) s.w.x, ?_, fun j _ => byteAt_keepBytes _ _ j⟩
  simp only [← isEncrypt_iff]
  rfl

end Sys2Proof.Machine
end

section
/-! PROOFS. The micro-operations of the Counter-Mode Keystream (R171, R172, R176 of spec/43_keystream.md): the exact
next state of each. -/

namespace Sys2Proof.Machine

/-! ### Where a keystream step leads -/

theorem leaveKeystream_eq (s : State) :
    leaveKeystream s = { s with w := { s.w with phase := if s.w.op = 0x01 then 0x8 else 0x2 } } := by
  simp only [leaveKeystream, enter, isEncrypt_iff]

/-- KS_S0 and KS_BLK go on to a payload block while one is left, and leave the keystream after that (R171, R172). -/
theorem enterAt_or_leaveKeystream (s : State) (c : Prop) [Decidable c] (k : BitVec 64) :
    (if c then enterAt s k 0x7 else leaveKeystream s) = { s with
      w := if c then { s.w with idx := k, phase := 0x7 }
      else { s.w with phase := if s.w.op = 0x01 then 0x8 else 0x2 } } := by
  rw [leaveKeystream_eq]
  split <;> rfl

/-! ### The bytes of one keystream block -/

@[simp] theorem ksBytes_length (s : State) : (ksBytes s).length = ksCount s := by simp [ksBytes]

theorem ksBytes_getD (s : State) {j : Nat} (h : j < ksCount s) :
    (ksBytes s).getD j 0 =
      content s .din (ksOffset s + j) ^^^ byteAt (cipher s (ctrInput s s.w.idx.toNat)) j := by
  rw [ksBytes, xorBytes_getD (by simpa using h) (by simpa using h), memRead_getD _ _ _ h, firstBytes_getD _ h]

/-- What KS_BLK leaves stored in DOUT: the masked bytes of DIN at their offsets, everything else as before (R172). -/
theorem stored_memWrite_ksBytes (s : State) (a : Nat) :
    stored (memWrite (answered s) .dout (ksOffset s) (ksBytes s)) .dout a =
      if ksOffset s ≤ a ∧ a < ksOffset s + ksCount s then
        some (content s .din a ^^^ byteAt (cipher s (ctrInput s s.w.idx.toNat)) (a - ksOffset s))
      else stored s .dout a := by
  rw [stored_memWrite, ksBytes_length]
  by_cases hin : ksOffset s ≤ a ∧ a < ksOffset s + ksCount s
  · rw [if_pos ⟨rfl, hin⟩, if_pos hin, ksBytes_getD s (by omega), Nat.add_sub_cancel' hin.1]
  · rw [if_neg fun h => hin h.2, if_neg hin]
    rfl

/-! ### The masked tag and where it goes -/

theorem byteAt_maskedTag (s : State) (j : Nat) :
    byteAt (maskedTag s) j = if j < s.w.m.toNat then byteAt s.w.t j ^^^ byteAt s.w.s0 j else 0 := by
  rw [maskedTag, byteAt_keepBytes, byteAt_xorBlock, tagLen]

theorem exec_tagMask_encrypt {s : State} (h : s.w.op = 0x01) :
    exec .tagMask s = .next { s with
      regs := { s.regs with tagOut := maskedTag s }, w := { s.w with phase := 0xA } } :=
  congrArg Host.Outcome.next (if_pos (isEncrypt_iff.mpr h))

theorem exec_tagMask_decrypt {s : State} (h : s.w.op ≠ 0x01) :
    exec .tagMask s = .next { s with w := { s.w with u := maskedTag s, phase := 0x9 } } :=
  congrArg Host.Outcome.next (if_neg (mt isEncrypt_iff.mp h))

/-! ### The micro-operations -/

/-- Settles O37: the write changes DOUT alone, at the masked bytes' offsets. -/
theorem keystreamMasksOneBlock : Obligations.KeystreamMasksOneBlock := by
  intro s i base c si
  obtain ⟨m, hm⟩ := memWrite_eq (answered s) .dout (ksOffset s) (ksBytes s)
  refine ⟨m, ?_, fun a => ?_⟩
  · have hexec := enterAt_or_leaveKeystream (memWrite (answered s) .dout (ksOffset s) (ksBytes s)) (i < nP s)
      (s.w.idx + 1)
    exact congrArg Host.Outcome.next (hexec.trans (by rw [hm]; rfl))
  · have hstored := stored_memWrite_ksBytes s a
    rw [hm] at hstored
    exact hstored

/-- Settles O36: the payload's keystream begins at block 1, if there is any. -/
theorem tagMaskingKeystreamBlock : Obligations.TagMaskingKeystreamBlock := by
  intro s s0
  have hexec := enterAt_or_leaveKeystream { answered s with w := { s.w with s0 := s0 } } (0 < nP s) 1
  exact congrArg Host.Outcome.next hexec

/-- Settles O38: both directions mask T alike, and differ in where the result goes. -/
theorem tagMasking : Obligations.TagMasking := fun s =>
  ⟨maskedTag s, fun j _ => byteAt_maskedTag s j, exec_tagMask_encrypt, exec_tagMask_decrypt⟩

end Sys2Proof.Machine
end

section
/-! PROOFS. The commands as the HOST writes them, and the micro-operations of the orchestration (R192 to R204 of
spec/44_orchestration_compare.md): the exact next state of each. -/

namespace Sys2Proof.Machine

variable {s t : State}

/-! ### Command acceptance -/

/-- Settles O18: an idle engine lets the write through to the acceptance of its value. -/
theorem commandAcceptance : Obligations.CommandAcceptance := by
  intro s i v hidle hcommand
  have accepted : exec i s = .next (hostWrite s (acceptCommand s v)) := by
    obtain ⟨rfl, rfl⟩ | ⟨rfl, rfl⟩ | ⟨rfl, -⟩ := hcommand
    all_goals rfl
  exact accepted.trans (congrArg _ (hostWrite_idle hidle _))

/-- Settles O19: what the gate lets through is the state itself. -/
theorem nopAndDoutWriteChangeNothing : Obligations.NopAndDoutWriteChangeNothing := fun s =>
  ⟨fun hidle => ⟨congrArg _ (hostWrite_idle hidle s), fun _ _ => congrArg _ (hostWrite_idle hidle s)⟩,
    fun hbusy => congrArg _ (hostWrite_busy hbusy s)⟩

/-! ### CHECK -/

theorem exec_check_reject {code : BitVec 2} {cause : BitVec 3} (h : checkFailure s = some (code, cause)) :
    exec .check s = .next (failCheck s code cause) := by
  simp only [exec, execCheck, h]

theorem exec_check_pass (h : checkFailure s = none) : exec .check s = .next (beginCommand s) := by
  simp only [exec, execCheck, h]

/-- The assigned commands (R93). -/
theorem mem_commands_iff (op : Byte) : op.toNat ∈ [1, 2] ↔ op = 0x01 ∨ op = 0x02 := by
  simp [← BitVec.toNat_inj]

/-- The tag lengths are the even numbers from 4 to 16 (R198). -/
theorem mem_tagLengths_iff (n : Nat) : n ∈ [4, 6, 8, 10, 12, 14, 16] ↔ 4 ≤ n ∧ n ≤ 16 ∧ n % 2 = 0 := by
  simp only [List.mem_cons, List.not_mem_nil, or_false]
  omega

theorem checkFailure_legal (h : Legal s) (hop : s.w.op = 0x01 ∨ s.w.op = 0x02) : checkFailure s = none := by
  obtain ⟨hkey, hnonce, htag, hmessage, haad, hdata⟩ := h
  have hmessage' : ¬2 ^ (8 * fmtL (nonceLen s)) ≤ payLen s := Nat.not_le.mpr hmessage
  have haad' : ¬s.capOf .aad < aadLen s := Nat.not_lt.mpr haad
  have hdata' : ¬s.capOf .din < payLen s := Nat.not_lt.mpr hdata
  rw [checkFailure, if_neg (not_not.mpr ((mem_commands_iff _).mpr hop)), if_neg (not_not.mpr hkey),
    if_neg (by omega), if_neg (not_not.mpr htag), if_neg hmessage', if_neg haad', if_neg hdata']

/-- Settles O30: legal parameters fail no check, and W.L and W.M hold theirs in full. -/
theorem checkPassesLegalParameters : Obligations.CheckPassesLegalParameters := by
  intro s hlegal hop
  obtain ⟨hl, hm⟩ := hlegal.fits
  refine ⟨(beginCommand s).w, exec_check_pass (checkFailure_legal hlegal hop), hl, hm, ?_, rfl⟩
  simp only [beginCommand, isEncrypt_iff]

/-- Settles O31: the checks before the failing one are the branches of `checkFailure` not taken. -/
theorem checkReportsTheFirstFailure : Obligations.CheckReportsTheFirstFailure := by
  intro s fails op keyLen nLen tLen pLen aFits pFits
  have hop : s.w.op.toNat ∈ [1, 2] ↔ op := mem_commands_iff _
  have hkey : s.regs.keyLen.toNat ∈ [16, 24, 32] ↔ keyLen := by simp [keyLen]
  have hnonce : (nonceLen s < 7 ∨ 13 < nonceLen s) ↔ ¬nLen := by simp only [nLen, nonceLen]; omega
  have htag : s.regs.tLen.toNat ∈ [4, 6, 8, 10, 12, 14, 16] ↔ tLen := mem_tagLengths_iff _
  have hmessage : 2 ^ (8 * fmtL (nonceLen s)) ≤ payLen s ↔ ¬pLen := Nat.not_lt.symm
  have haad : s.capOf .aad < aadLen s ↔ ¬aFits := Nat.not_le.symm
  have hdata : s.capOf .din < payLen s ↔ ¬pFits := Nat.not_le.symm
  have failure : checkFailure s =
      if ¬op then some (1, 1) else if ¬keyLen then some (1, 2) else if ¬nLen then some (1, 3)
      else if ¬tLen then some (1, 4) else if ¬pLen then some (2, 0) else if ¬aFits then some (1, 5)
      else if ¬pFits then some (1, 6) else none := by
    simp only [checkFailure, hop, hkey, hnonce, htag, hmessage, haad, hdata]
    rfl
  refine ⟨?_, ?_, ?_, ?_, ?_, ?_, ?_⟩
  all_goals
    intros
    exact exec_check_reject (by simp only [*, not_true_eq_false, not_false_eq_true, if_true, if_false])

/-! ### CT_COMPARE -/

/-- The comparator's accumulation is zero exactly when every byte it took in agreed, by induction on their number. -/
theorem tagDiff_eq_zero_iff (m : Nat) (u t : Vector Byte 16) :
    tagDiff m u t = 0 ↔ ∀ j, j < m → byteAt u j = byteAt t j := by
  induction m with
  | zero => simp [tagDiff]
  | succ m ih =>
    have hsucc : tagDiff (m + 1) u t = tagDiff m u t ||| (byteAt u m ^^^ byteAt t m) := by
      simp [tagDiff, List.range_succ]
    rw [hsucc, Nat.forall_lt_succ_right, ← ih]
    exact BitVec.or_eq_zero_iff.trans (and_congr_right' BitVec.xor_eq_zero_iff)

/-- Settles O39: the comparator looks at the first M bytes alone. -/
theorem comparatorVerdict : Obligations.ComparatorVerdict := fun s =>
  ⟨tagDiff (tagLen s) s.w.u s.regs.tagIn = 0, rfl, decide_eq_true_iff.trans (tagDiff_eq_zero_iff _ _ _)⟩

/-! ### The completions -/

/-- Settles O40: the verdict counts for DECRYPT alone. -/
theorem finCompletesTheCommand : Obligations.FinCompletesTheCommand := by
  intro s
  have verdict : (s.w.op.toNat = 2 && s.w.aok) = if s.w.op = 0x02 then s.w.aok else false := by
    have hop : s.w.op.toNat = 2 ↔ s.w.op = 0x02 := BitVec.toNat_inj (y := 0x02)
    split
    · simp only [hop.mpr ‹_›, decide_true, Bool.true_and]
    · simp only [mt hop.mp ‹_›, decide_false, Bool.false_and]
  rw [← verdict]
  rfl

/-- Settles O41: ERRFIN's answer, written out. -/
theorem errfinReportsTheFailure : Obligations.ErrfinReportsTheFailure := fun _ => rfl

end Sys2Proof.Machine
end

section
/-! PROOFS. The sequence of micro-operations does not depend on keys, nonces, tags or data (R209 of
spec/44_orchestration_compare.md): what the sequencer looks at decides where it goes. -/

namespace Sys2Proof.Machine

variable {s t : State}

/-- The two machines agree on what the sequencer looks at: W.OP, its own registers, the lengths, the capacities and
BUSY. -/
structure SameSequence (s t : State) : Prop where
  op : s.w.op = t.w.op
  phase : s.w.phase = t.w.phase
  idx : s.w.idx = t.w.idx
  keyLen : s.regs.keyLen = t.regs.keyLen
  nLen : s.regs.nLen = t.regs.nLen
  tLen : s.regs.tLen = t.regs.tLen
  aLen : s.regs.aLen = t.regs.aLen
  pLen : s.regs.pLen = t.regs.pLen
  caps : s.caps = t.caps
  busy : s.regs.status.busy = t.regs.status.busy

namespace SameSequence

theorem isEncrypt_eq (h : SameSequence s t) : isEncrypt s = isEncrypt t := by
  simp only [isEncrypt, h.op]

theorem nA_eq (h : SameSequence s t) : nA s = nA t := by
  simp only [nA, aadLen, h.aLen]

theorem nP_eq (h : SameSequence s t) : nP s = nP t := by
  simp only [nP, payLen, h.pLen]

theorem checkFailure_eq (h : SameSequence s t) : checkFailure s = checkFailure t := by
  simp only [checkFailure, nonceLen, payLen, aadLen, State.capOf, h.op, h.keyLen, h.nLen, h.tLen, h.aLen, h.pLen,
    h.caps]
  rfl

theorem enter (h : SameSequence s t) (p : BitVec 4) : SameSequence (enter s p) (enter t p) :=
  { h with phase := rfl }

theorem enterAt (h : SameSequence s t) {k k' : BitVec 64} (hk : k = k') (p : BitVec 4) :
    SameSequence (enterAt s k p) (enterAt t k' p) :=
  { h with idx := hk, phase := rfl }

/-- A decision on which the two machines agree leads both the same way. -/
theorem ite {a b : State} {c c' : Prop} [Decidable c] [Decidable c'] (hc : c ↔ c') (h₁ : SameSequence s t)
    (h₂ : SameSequence a b) : SameSequence (if c then s else a) (if c' then t else b) := by
  by_cases h : c
  · rwa [if_pos h, if_pos (hc.mp h)]
  · rwa [if_neg h, if_neg (mt hc.mpr h)]

theorem enterPayload (h : SameSequence s t) : SameSequence (enterPayload s) (enterPayload t) :=
  ite (by rw [h.nP_eq]) (h.enterAt rfl _) (h.enter _)

theorem leaveKeystream (h : SameSequence s t) : SameSequence (leaveKeystream s) (leaveKeystream t) := by
  rw [Machine.leaveKeystream, Machine.leaveKeystream, h.isEncrypt_eq]
  exact h.enter _

theorem setX (h : SameSequence s t) (x y : Block) : SameSequence (setX s x) (setX t y) := { h with }

theorem memWrite (h : SameSequence s t) {b : Buffer} (off off' : Nat) (l l' : List Byte) :
    SameSequence (memWrite s b off l) (memWrite t b off' l') := by
  constructor <;> simp only [memWrite_w, memWrite_regs, memWrite_caps, h.op, h.phase, h.idx, h.keyLen, h.nLen,
    h.tLen, h.aLen, h.pLen, h.caps, h.busy]

theorem complete (h : SameSequence s t) (e e' : Err) (v v' : Bool) :
    SameSequence (complete s e v) (complete t e' v') :=
  { h with op := rfl, phase := rfl, idx := rfl, busy := rfl }

end SameSequence

/-- CHECK looks at nothing else. -/
theorem exec_check_sameSequence {s' : State} (h : SameSequence s t) (hs : exec .check s = .next s') :
    ∃ t', exec .check t = .next t' ∧ SameSequence s' t' := by
  cases hcheck : checkFailure s with
  | some failure =>
    cases (exec_check_reject hcheck).symm.trans hs
    exact ⟨_, exec_check_reject (h.checkFailure_eq ▸ hcheck), { h with phase := rfl }⟩
  | none =>
    cases (exec_check_pass hcheck).symm.trans hs
    refine ⟨_, exec_check_pass (h.checkFailure_eq ▸ hcheck), { h with phase := ?_ }⟩
    simp only [beginCommand, h.isEncrypt_eq]

/-- Micro-operation by micro-operation: the values differ, the way the sequencer takes does not. -/
theorem exec_sameSequence {i : Instr} {s' : State} (hi : i.isHost = false) (h : SameSequence s t)
    (hs : exec i s = .next s') : ∃ t', exec i t = .next t' ∧ SameSequence s' t' := by
  have hidx : s.w.idx + 1 = t.w.idx + 1 := by rw [h.idx]
  cases i with
  | cmdNop | encrypt | decrypt | cmdRsvd | statusW | regWr | regRd => contradiction
  | aadWr | aadRd | dinWr | dinRd | doutWr | doutRd => contradiction
  | check => exact exec_check_sameSequence h hs
  | phaseRsvd => cases hs
  | idle =>
    cases hs
    exact ⟨_, rfl, h⟩
  | macB0 =>
    cases hs
    exact ⟨_, rfl, .ite (by rw [h.nA_eq]) ((h.setX _ _).enterAt rfl _) (h.setX _ _).enterPayload⟩
  | macAad =>
    cases hs
    exact ⟨_, rfl, .ite (by rw [h.nA_eq, h.idx]) ((h.setX _ _).enterAt hidx _) (h.setX _ _).enterPayload⟩
  | macPay =>
    cases hs
    exact ⟨_, rfl, .ite (by rw [h.nP_eq, h.idx]) ((h.setX _ _).enterAt hidx _) ((h.setX _ _).enter _)⟩
  | macFinal =>
    cases hs
    exact ⟨_, rfl, { h with phase := by rw [h.isEncrypt_eq]; rfl }⟩
  | ksS0 =>
    cases hs
    have hs0 (x y : Block) : SameSequence { answered s with w := { s.w with s0 := x } }
        { answered t with w := { t.w with s0 := y } } := { h with }
    exact ⟨_, rfl, .ite (by rw [h.nP_eq]) ((hs0 _ _).enterAt rfl _) (hs0 _ _).leaveKeystream⟩
  | ksBlk =>
    cases hs
    have hwrite := SameSequence.memWrite (s := answered s) (t := answered t) { h with } (b := .dout) (ksOffset s)
      (ksOffset t) (ksBytes s) (ksBytes t)
    exact ⟨_, rfl, .ite (by rw [h.nP_eq, h.idx]) (hwrite.enterAt hidx _) hwrite.leaveKeystream⟩
  | tagMask =>
    cases hs
    have htag (x y : Block) : SameSequence { s with regs := { s.regs with tagOut := x } }
        { t with regs := { t.regs with tagOut := y } } := { h with }
    have hu (x y : Block) : SameSequence { s with w := { s.w with u := x } } { t with w := { t.w with u := y } } :=
      { h with }
    exact ⟨_, rfl, .ite (by rw [h.isEncrypt_eq]) ((htag _ _).enter _) ((hu _ _).enter _)⟩
  | ctCompare =>
    cases hs
    exact ⟨_, rfl, { h with phase := rfl }⟩
  | fin | errfin =>
    cases hs
    exact ⟨_, rfl, h.complete _ _ _ _⟩

/-- Settles O51: what the two states agree on is all the sequencer looks at. -/
theorem sequenceIsDataIndependent : Obligations.SequenceIsDataIndependent := by
  intro s t c s' hop hphase hidx hkey hn ht ha hp hcaps hbusy hs
  obtain ⟨t', ht', op, phase, idx, keyLen, nLen, tLen, aLen, pLen, caps, busy⟩ :=
    exec_sameSequence (decodePhase_not_isHost c) ⟨hop, hphase, hidx, hkey, hn, ht, ha, hp, hcaps, hbusy⟩ hs
  exact ⟨t', ht', op, phase, idx, keyLen, nLen, tLen, aLen, pLen, caps, busy⟩

end Sys2Proof.Machine
end

section
/-! PROOFS. Runs in which the ENGINE moves in every step: the micro-operations taken one after the other, and how such
a run is a run of the machine whose turns are all the ENGINE's. -/

namespace Sys2Proof.Machine

variable {s t u : State} {is js : List Instr}

/-- The ENGINE takes these micro-operations, one after the other, from a state to a state. The turns play no part. -/
inductive MicroRun : State → List Instr → State → Prop
  | nil (s : State) : MicroRun s [] s
  | cons {s t u : State} {i : Instr} {is : List Instr} : s.regs.status.busy = true → decodePhase s.w.phase = i →
      exec i s = .next t → MicroRun t is u → MicroRun s (i :: is) u

theorem MicroRun.single {i : Instr} (hb : s.regs.status.busy = true) (hi : decodePhase s.w.phase = i)
    (h : exec i s = .next t) : MicroRun s [i] t := .cons hb hi h (.nil t)

theorem MicroRun.append (h : MicroRun s is t) (h' : MicroRun t js u) : MicroRun s (is ++ js) u := by
  induction h with
  | nil => exact h'
  | cons hb hi hx _ ih => exact .cons hb hi hx (ih h')

/-! ### The turns play no part -/

@[simp] theorem withTurns_turns (s : State) : withTurns s s.env.turns = s := rfl

theorem memWrite_withTurns (s : State) (ts : List Turn) (b : Buffer) (off : Nat) (bytes : List Byte) :
    memWrite (withTurns s ts) b off bytes = withTurns (memWrite s b off bytes) ts := by
  induction bytes generalizing s off with
  | nil => rfl
  | cons v rest ih => exact ih (store s b off v) (off + 1)

/-- KS_BLK is its write, and the sequencer's move (R172). -/
theorem exec_ksBlk (s : State) :
    exec .ksBlk s = .next { memWrite (answered s) .dout (ksOffset s) (ksBytes s) with
      w := if s.w.idx.toNat < nP s then { s.w with idx := s.w.idx + 1, phase := 0x7 }
      else { s.w with phase := if s.w.op = 0x01 then 0x8 else 0x2 } } := by
  refine congrArg Host.Outcome.next ((enterAt_or_leaveKeystream _ _ _).trans ?_)
  rw [memWrite_w]
  rfl

/-- No micro-operation looks at the turns still to come. -/
theorem exec_withTurns {i : Instr} (hi : i.isHost = false) (h : exec i s = .next t) (ts : List Turn) :
    exec i (withTurns s ts) = .next (withTurns t ts) := by
  cases i with
  | cmdNop | encrypt | decrypt | cmdRsvd | statusW | regWr | regRd => contradiction
  | aadWr | aadRd | dinWr | dinRd | doutWr | doutRd => contradiction
  | phaseRsvd => cases h
  | check =>
    cases hcheck : checkFailure s with
    | some failure =>
      cases (exec_check_reject hcheck).symm.trans h
      exact exec_check_reject (s := withTurns s ts) hcheck
    | none =>
      cases (exec_check_pass hcheck).symm.trans h
      exact exec_check_pass (s := withTurns s ts) hcheck
  | macB0 =>
    cases (macOfTheInitialBlock s).symm.trans h
    exact macOfTheInitialBlock (withTurns s ts)
  | macAad =>
    cases (macOfAnAadBlock s).symm.trans h
    exact macOfAnAadBlock (withTurns s ts)
  | macPay =>
    cases (macOfAPayloadBlock s).symm.trans h
    exact macOfAPayloadBlock (withTurns s ts)
  | ksS0 =>
    cases (tagMaskingKeystreamBlock s).symm.trans h
    exact tagMaskingKeystreamBlock (withTurns s ts)
  | ksBlk =>
    have hwrite := memWrite_withTurns (answered s) ts .dout (ksOffset s) (ksBytes s)
    cases (exec_ksBlk s).symm.trans h
    exact (exec_ksBlk (withTurns s ts)).trans (congrArg _ (hwrite ▸ rfl))
  | tagMask =>
    by_cases hop : s.w.op = 0x01
    · cases (exec_tagMask_encrypt hop).symm.trans h
      exact exec_tagMask_encrypt (s := withTurns s ts) hop
    · cases (exec_tagMask_decrypt hop).symm.trans h
      exact exec_tagMask_decrypt (s := withTurns s ts) hop
  | idle | macFinal | ctCompare | fin | errfin =>
    cases h
    rfl

/-- In the ENGINE's turn of a busy engine the step takes one micro-operation. -/
theorem step_withTurns_engine {i : Instr} (hb : s.regs.status.busy = true) (hi : decodePhase s.w.phase = i)
    (h : exec i s = .next t) (ts : List Turn) : step (withTurns s (.engine :: ts)) = .next (withTurns t ts) := by
  have hbusy : (withTurns s (.engine :: ts)).regs.status.busy = true := hb
  rw [step_engine rfl, if_pos hbusy]
  exact (congrArg (exec · _) hi).trans (exec_withTurns (hi ▸ decodePhase_not_isHost _) h ts)

theorem microTrace_succ (h : step s = .next t) (k : Nat) :
    microTrace (k + 1) s = decodePhase s.w.phase :: microTrace k t := by
  simp only [microTrace, h]

/-- With so many turns of the ENGINE's the machine runs to the same state. -/
theorem MicroRun.run (h : MicroRun s is t) (ts : List Turn) :
    Sys2Proof.core.run is.length (withTurns s (List.replicate is.length .engine ++ ts)) = .next (withTurns t ts) := by
  induction h with
  | nil => rfl
  | cons hb hi hx _ ih => exact (run_succ_of_step (step_withTurns_engine hb hi hx _) _).trans ih

/-- The micro-operations of that run are these. -/
theorem MicroRun.trace (h : MicroRun s is t) (ts : List Turn) :
    microTrace is.length (withTurns s (List.replicate is.length .engine ++ ts)) = is := by
  induction h with
  | nil => rfl
  | cons hb hi hx _ ih =>
    exact (microTrace_succ (step_withTurns_engine hb hi hx _) _).trans (congrArg₂ List.cons hi ih)

end Sys2Proof.Machine
end

section
/-! PROOFS. The two stages of a command and their results: the CBC-MAC over the formatted message (R150, R156) and the
keystream over the payload (R170, R172). Both commands take both stages, in the two orders of R110. -/

namespace Sys2Proof.Machine

variable {s : State}

/-! ### Strings read from a buffer -/

theorem content_of_stored {b : Buffer} {a : Nat} {v : Byte} (h : stored s b a = some v) : content s b a = v := by
  rw [content, h, Option.getD_some]

theorem map_getD_range (l : List Byte) : (List.range l.length).map (fun j => l.getD j 0) = l := by
  refine List.ext_getElem (by simp) fun j _ hj => ?_
  simp [List.getD_eq_getElem?_getD, hj]

/-- `MemRead` finds a string whose bytes stand at the offsets read. -/
theorem memRead_eq_of_getD {b : Buffer} {l : List Byte} (h : ∀ a, a < l.length → content s b a = l.getD a 0) :
    memRead s b 0 l.length = l := by
  refine Eq.trans (List.map_congr_left fun j hj => ?_) (map_getD_range l)
  rw [Nat.zero_add, h j (List.mem_range.mp hj)]

/-! ### The MAC -/

/-- The CBC-MAC goes on over more blocks (R150). -/
def absorb (key : List Byte) (x : Block) (ys : List Block) : Block :=
  ys.foldl (fun x y => Config.ciph key (xorBlock x y)) x

theorem absorb_append (key : List Byte) (x : Block) (ys zs : List Block) :
    absorb key x (ys ++ zs) = absorb key (absorb key x ys) zs := List.foldl_append

/-- The MAC of a message held in the buffers, in terms of the blocks the Formatter computes there (R128, R130). -/
theorem messageMac_memRead (s : State) (b : Buffer) (key nonce : List Byte) (m l : Nat) :
    messageMac key nonce (memRead s .aad 0 (aadLen s)) (memRead s b 0 (payLen s)) m l =
      absorb key (Config.ciph key (fmtB0 nonce (aadLen s) (payLen s) m l))
        ((List.range (nA s)).map (faBlock s) ++ (List.range (nP s)).map (ppBlock s b)) := by
  rw [messageMac, memRead_length, memRead_length, blocksOf_eq_map fun k _ hj => byteAt_faBlock s k hj,
    blocksOf_eq_map fun k _ hj => byteAt_ppBlock s b k hj]
  rfl

theorem nA_le (s : State) : nA s ≤ 2 ^ 61 := by
  have ha : aadLen s < 2 ^ 64 := s.regs.aLen.isLt
  have hheader : (aadHeader (aadLen s)).length ≤ 10 := by
    unfold aadHeader
    split_ifs <;> simp
  have hround := pad16_lt ((aadHeader (aadLen s)).length + aadLen s)
  simp only [nA, aadBlocks]
  split
  · exact Nat.zero_le _
  · omega

/-- A 64-bit block index in front of a bound moves on by one. -/
theorem toNat_succ_eq {k : BitVec 64} {n : Nat} (h : k.toNat + 1 < n) (hn : n ≤ 2 ^ 61) :
    (k + 1).toNat = k.toNat + 1 := by
  rw [BitVec.toNat_add]
  exact Nat.mod_eq_of_lt (by simp; omega)

/-- A micro-operation that takes one block into X and comes again until the last of `n` takes them all, by induction
on how many are left. -/
theorem absorb_loop {i : Instr} {key : List Byte} {n : Nat} {block : Nat → Block}
    {again next : BitVec 64 → Block → State} (hn : n ≤ 2 ^ 61)
    (hb : ∀ k x, (again k x).regs.status.busy = true) (hi : ∀ k x, decodePhase (again k x).w.phase = i)
    (hexec : ∀ k x, exec i (again k x) = .next (
      if k.toNat + 1 < n then again (k + 1) (absorb key x [block k.toNat])
      else next k (absorb key x [block k.toNat])))
    (left : Nat) (k : BitVec 64) (x : Block) (hk : k.toNat + (left + 1) = n) :
    ∃ j, MicroRun (again k x) (List.replicate (left + 1) i)
      (next j (absorb key x ((List.range' k.toNat (left + 1)).map block))) := by
  have hstep := hexec k x
  induction left generalizing k x with
  | zero =>
    rw [if_neg (by omega)] at hstep
    exact ⟨k, .single (hb k x) (hi k x) hstep⟩
  | succ left ih =>
    have hsucc : (k + 1).toNat = k.toNat + 1 := toNat_succ_eq (n := n) (by omega) hn
    rw [if_pos (by omega)] at hstep
    obtain ⟨j, hrun⟩ := ih (k + 1) _ (by omega) (hexec _ _)
    rw [hsucc, ← absorb_append] at hrun
    exact ⟨j, .cons (hb k x) (hi k x) hstep hrun⟩

/-- The machine in the MAC stage of `s`, at this micro-operation and block index, with this X. -/
def macAt (s : State) (p : BitVec 4) (k : BitVec 64) (x : Block) : State :=
  { s with w := { s.w with phase := p, idx := k, x := x }, port := none }

/-- MAC_AAD takes in the whole formatted AAD, if there is any, and leads to the payload. -/
theorem macAad_run (hb : s.regs.status.busy = true) (p : BitVec 4) (k : BitVec 64) (x : Block) :
    ∃ q j, MicroRun (if 0 < nA s then macAt s 3 0 x else enterPayload (macAt s p k x))
      (List.replicate (nA s) .macAad)
      (enterPayload (macAt s q j (absorb (keyBytes s) x ((List.range (nA s)).map (faBlock s))))) := by
  cases hn : nA s with
  | zero => exact ⟨p, k, .nil _⟩
  | succ n =>
    obtain ⟨j, hrun⟩ := absorb_loop (i := .macAad) (key := keyBytes s) (block := faBlock s) (again := macAt s 3)
      (next := fun j x => enterPayload (macAt s 3 j x)) (nA_le s) (fun _ _ => hb) (fun _ _ => rfl) (fun _ _ => rfl)
      n 0 x (by simp [hn])
    rw [if_pos (by omega), List.range_eq_range']
    exact ⟨3, j, hrun⟩

/-- MAC_PAY takes in the whole padded payload, if there is any, and leads to MAC_FINAL. -/
theorem macPay_run (hb : s.regs.status.busy = true) (p : BitVec 4) (k : BitVec 64) (x : Block) :
    ∃ j, MicroRun (enterPayload (macAt s p k x)) (List.replicate (nP s) .macPay)
      (macAt s 5 j (absorb (keyBytes s) x ((List.range (nP s)).map (ppBlock s (paySource s))))) := by
  have hnP : nP (macAt s p k x) = nP s := rfl
  rw [enterPayload, hnP]
  cases hn : nP s with
  | zero => exact ⟨k, .nil _⟩
  | succ n =>
    obtain ⟨j, hrun⟩ := absorb_loop (i := .macPay) (key := keyBytes s) (block := ppBlock s (paySource s))
      (again := macAt s 4) (next := macAt s 5) ((nP_le s).trans (by decide)) (fun _ _ => hb)
      (fun _ _ => rfl) (fun _ _ => rfl) n 0 x (by simp [hn])
    rw [if_pos (by omega), List.range_eq_range']
    exact ⟨j, hrun⟩

/-- The MAC of the command's message with this payload. -/
def commandMac (s : State) (payload : List Byte) : Block :=
  messageMac (keyBytes s) (nonceBytes s) (memRead s .aad 0 (aadLen s)) payload (tagLen s) (lenWidth s)

/-- The micro-operations of the MAC stage. -/
def macOps (a n : Nat) : List Instr :=
  [Instr.macB0] ++ List.replicate a Instr.macAad ++ List.replicate n Instr.macPay ++ [Instr.macFinal]

/-- The machine after the MAC stage of `s`, with this block index and this X: T is the MAC of the message, whose payload
is where MAC_PAY finds it. -/
def afterMac (s : State) (j : BitVec 64) (x : Block) : State :=
  { s with
    w := { s.w with
      phase := if isEncrypt s then 0x6 else 0x8
      idx := j
      x := x
      t := keepBytes (tagLen s) (commandMac s (memRead s (paySource s) 0 (payLen s))) }
    port := none }

/-- The MAC stage: B0, then every block of AAD and payload (R150, R156). -/
theorem mac_run (hb : s.regs.status.busy = true) (hp : s.w.phase = 2) :
    ∃ j x, MicroRun s (macOps (nA s) (nP s)) (afterMac s j x) := by
  obtain ⟨q, k, haad⟩ := macAad_run hb s.w.phase s.w.idx (cipher s (macB0Input s))
  obtain ⟨j, hpay⟩ := macPay_run hb q k
    (absorb (keyBytes s) (cipher s (macB0Input s)) ((List.range (nA s)).map (faBlock s)))
  have hinit : MicroRun s [.macB0] (if 0 < nA s then macAt s 3 0 (cipher s (macB0Input s))
      else enterPayload (macAt s s.w.phase s.w.idx (cipher s (macB0Input s)))) := .single hb (by rw [hp]; rfl) rfl
  have hmac : commandMac s (memRead s (paySource s) 0 (payLen s)) = _ :=
    (messageMac_memRead s (paySource s) (keyBytes s) (nonceBytes s) (tagLen s) (lenWidth s)).trans
      (absorb_append _ _ _ _)
  simp only [afterMac, hmac]
  exact ⟨j, _, ((hinit.append haad).append hpay).append (.single hb rfl rfl)⟩

/-! ### The keystream -/

/-- The payload byte of DIN at an offset, masked with the keystream (R172, R190). -/
def maskedByte (s : State) (a : Nat) : Byte :=
  content s .din a ^^^ keyByte (keyBytes s) (nonceBytes s) (lenWidth s) a

theorem applyKeystream_getD (key nonce : List Byte) (l : Nat) {data : List Byte} {j : Nat} (h : j < data.length) :
    (applyKeystream key nonce l data).getD j 0 = data.getD j 0 ^^^ keyByte key nonce l j := by
  simp [applyKeystream, List.getD_eq_getElem?_getD, h]

@[simp] theorem applyKeystream_length (key nonce : List Byte) (l : Nat) (data : List Byte) :
    (applyKeystream key nonce l data).length = data.length := by simp [applyKeystream]

/-- The keystream at the offsets of its block `i`, which begin at `16(i − 1)` (R170, R172). -/
theorem keyByte_eq (key nonce : List Byte) (l : Nat) {i a : Nat} (h : 16 * (i - 1) ≤ a ∧ a < 16 * i) :
    keyByte key nonce l a = byteAt (keyBlock key nonce l i) (a - 16 * (i - 1)) := by
  have hblock : 1 + a / 16 = i := by omega
  have hbyte : a % 16 = a - 16 * (i - 1) := by omega
  rw [keyByte, hblock, hbyte]

/-- The machine in the keystream stage of `s`, at this micro-operation and block number, with this DOUT. -/
def ksAt (s : State) (p : BitVec 4) (k : BitVec 64) (d : Memory) : State :=
  { s with w := { s.w with phase := p, idx := k }, buf := { s.buf with dout := d }, port := none }

/-- KS_BLK masks the payload bytes of one block, and comes again or leaves the stage. -/
theorem exec_ksBlk_ksAt (s : State) {k : BitVec 64} (d : Memory) (h1 : 1 ≤ k.toNat) :
    ∃ m, exec .ksBlk (ksAt s 7 k d) = .next (
        if k.toNat < nP s then ksAt s 7 (k + 1) m else ksAt s (if isEncrypt s then 0x8 else 0x2) k m) ∧
      ∀ a, Memory.read m a =
        if (16 * (k.toNat - 1) ≤ a ∧ a < 16 * k.toNat) ∧ a < payLen s then some (maskedByte s a)
        else Memory.read d a := by
  obtain ⟨m, hexec, hread⟩ := keystreamMasksOneBlock (ksAt s 7 k d)
  refine ⟨m, hexec.trans (congrArg Host.Outcome.next ?_), fun a => (hread a).trans ?_⟩
  · simp only [isEncrypt_iff]
    split
    · exact (if_pos ‹_›).symm
    · exact (if_neg ‹_›).symm
  · have hrange : 16 * (k.toNat - 1) ≤ a ∧ a < 16 * (k.toNat - 1) + min 16 (payLen s - 16 * (k.toNat - 1)) ↔
        (16 * (k.toNat - 1) ≤ a ∧ a < 16 * k.toNat) ∧ a < payLen s := by omega
    by_cases h : (16 * (k.toNat - 1) ≤ a ∧ a < 16 * k.toNat) ∧ a < payLen s
    · rw [if_pos h, maskedByte, keyByte_eq _ _ _ h.1]
      exact if_pos (hrange.mpr h)
    · rw [if_neg h]
      exact if_neg (mt hrange.mp h)

/-- KS_BLK, coming again until the last block, masks the payload from its first block on, by induction on how many
blocks are left. -/
theorem ksBlk_loop (hb : s.regs.status.busy = true) (left : Nat) (k : BitVec 64) (d : Memory) (h1 : 1 ≤ k.toNat)
    (hk : k.toNat + left = nP s) :
    ∃ j d', MicroRun (ksAt s 7 k d) (List.replicate (left + 1) .ksBlk)
        (ksAt s (if isEncrypt s then 0x8 else 0x2) j d') ∧
      ∀ a, Memory.read d' a =
        if 16 * (k.toNat - 1) ≤ a ∧ a < payLen s then some (maskedByte s a) else Memory.read d a := by
  obtain ⟨m, hexec, hread⟩ := exec_ksBlk_ksAt s d h1
  induction left generalizing k d m with
  | zero =>
    have hlast : payLen s ≤ 16 * k.toNat := by
      rw [← Nat.add_zero k.toNat, hk, nP, payBlocks, sixteen_mul_ceil16]
      omega
    rw [if_neg (by omega)] at hexec
    refine ⟨k, m, .single hb rfl hexec, fun a => (hread a).trans (if_congr ?_ rfl rfl)⟩
    omega
  | succ left ih =>
    have hlt : k.toNat + 1 < nP s + 1 := by omega
    have hsucc : (k + 1).toNat = k.toNat + 1 := toNat_succ_eq hlt (by have := nP_le s; omega)
    rw [if_pos (by omega)] at hexec
    obtain ⟨m', hexec', hread'⟩ := exec_ksBlk_ksAt s (k := k + 1) m (by omega)
    obtain ⟨j, d', hrun, hd'⟩ := ih (k + 1) m (by omega) (by omega) m' hexec' hread'
    refine ⟨j, d', .cons hb rfl hexec hrun, fun a => ?_⟩
    rw [hd', hread, hsucc, Nat.add_sub_cancel]
    by_cases hlater : 16 * k.toNat ≤ a ∧ a < payLen s
    · rw [if_pos hlater, if_pos (by omega)]
    · rw [if_neg hlater]
      exact if_congr (by omega) rfl rfl

/-- The micro-operations of the keystream stage. -/
def ksOps (n : Nat) : List Instr := [Instr.ksS0] ++ List.replicate n Instr.ksBlk

/-- The machine after the keystream stage of `s`, with this block number and this DOUT: S0 is the block that masks the
tag. -/
def afterKs (s : State) (j : BitVec 64) (d : Memory) : State :=
  { s with
    w := { s.w with
      phase := if isEncrypt s then 0x8 else 0x2
      idx := j
      s0 := keyBlock (keyBytes s) (nonceBytes s) (lenWidth s) 0 }
    buf := { s.buf with dout := d }
    port := none }

/-- The keystream stage leaves the masked payload in DOUT and nothing else there changed. -/
theorem ks_run (hb : s.regs.status.busy = true) (hp : s.w.phase = 6) :
    ∃ j d, MicroRun s (ksOps (nP s)) (afterKs s j d) ∧
      ∀ a, Memory.read d a = if a < payLen s then some (maskedByte s a) else stored s .dout a := by
  let v := { s with w := { s.w with s0 := keyBlock (keyBytes s) (nonceBytes s) (lenWidth s) 0 } }
  have hinit : MicroRun s [.ksS0] (if 0 < nP s then ksAt v 7 1 s.buf.dout
      else ksAt v (if isEncrypt s then 0x8 else 0x2) s.w.idx s.buf.dout) := .single hb (by rw [hp]; rfl) rfl
  cases hn : nP s with
  | zero =>
    have hempty : payLen s = 0 := by
      have hround := sixteen_mul_ceil16 (payLen s)
      rw [nP, payBlocks] at hn
      omega
    rw [if_neg (by omega)] at hinit
    exact ⟨s.w.idx, s.buf.dout, hinit, fun a => (if_neg (by omega)).symm⟩
  | succ n =>
    rw [if_pos (by omega)] at hinit
    have hcount : (1 : BitVec 64).toNat + n = nP s := by rw [hn, Nat.add_comm]; rfl
    obtain ⟨j, d, hrun, hd⟩ := ksBlk_loop (s := v) hb n 1 s.buf.dout (by decide) hcount
    exact ⟨j, d, hinit.append hrun, fun a => (hd a).trans (if_congr (and_iff_right (Nat.zero_le a)) rfl rfl)⟩

end Sys2Proof.Machine
end

section
/-! PROOFS. Whole commands (R190, R191 of spec/44_orchestration_compare.md): the two stages in the order of each
command, and from there its micro-operations and its results. -/

namespace Sys2Proof.Machine

variable {s : State}

/-! ### The results -/

/-- What the keystream stage of the command of `s` leaves in DOUT (R172). -/
def commandOutput (s : State) : List Byte :=
  applyKeystream (keyBytes s) (nonceBytes s) (lenWidth s) (memRead s .din 0 (payLen s))

/-- The masked tag of the command of `s` over this payload (R175). -/
def commandTag (s : State) (payload : List Byte) : Block :=
  maskTag (keyBytes s) (nonceBytes s) (tagLen s) (lenWidth s) (commandMac s payload)

@[simp] theorem commandOutput_length (s : State) : (commandOutput s).length = payLen s := by simp [commandOutput]

theorem maskedByte_eq_getD {a : Nat} (h : a < payLen s) : maskedByte s a = (commandOutput s).getD a 0 := by
  rw [commandOutput, applyKeystream_getD _ _ _ (by simpa using h), memRead_getD _ _ _ h, Nat.zero_add, maskedByte]

/-- T holds the MAC cut to M bytes, which masking cuts it to anyway. -/
theorem maskTag_keepBytes (key nonce : List Byte) (m l : Nat) (x : Block) :
    keepBytes m (xorBlock (keepBytes m x) (keyBlock key nonce l 0)) = maskTag key nonce m l x := by
  refine vector_ext_byteAt fun j _ => ?_
  simp only [maskTag, byteAt_keepBytes, byteAt_xorBlock]
  split <;> rfl

/-- The end of a command: these flags and results, every working register clear (R204). -/
def finished (s : State) (authok : Bool) (tagOut : Vector Byte 16) (d : Memory) : State :=
  { s with
    regs := { s.regs with
      status := { busy := false, done := true, authok := authok, wign := s.regs.status.wign }
      tagOut := tagOut }
    w := Work.clear
    buf := { s.buf with dout := d }
    port := none }

/-- This memory holds the output below PLEN and what DOUT held elsewhere. -/
def HoldsOutput (s : State) (output : List Byte) (d : Memory) : Prop :=
  ∀ a, Memory.read d a = if a < payLen s then some (output.getD a 0) else stored s .dout a

theorem holdsOutput_of_masked {d : Memory}
    (h : ∀ a, Memory.read d a = if a < payLen s then some (maskedByte s a) else stored s .dout a) :
    HoldsOutput s (commandOutput s) d := by
  intro a
  rw [h]
  split
  · rw [maskedByte_eq_getD ‹_›]
  · rfl

/-- In an ENCRYPT the masked tag is over the plaintext, which MAC_PAY finds before the keystream stage. -/
theorem maskedTag_afterKs_afterMac (s : State) (j k : BitVec 64) (x : Block) (d : Memory) :
    maskedTag (afterKs (afterMac s j x) k d) = commandTag s (memRead s (paySource s) 0 (payLen s)) :=
  maskTag_keepBytes _ _ _ _ _

/-- In a DECRYPT it is over what MAC_PAY finds after the keystream stage. -/
theorem maskedTag_afterMac_afterKs (s : State) (j k : BitVec 64) (x : Block) (d : Memory) :
    maskedTag (afterMac (afterKs s k d) j x) =
      commandTag s (memRead (afterKs s k d) (paySource (afterKs s k d)) 0 (payLen s)) :=
  maskTag_keepBytes _ _ _ _ _

/-- What MAC_PAY finds in DOUT after the keystream stage is the output. -/
theorem HoldsOutput.memRead_afterKs {d : Memory} (h : HoldsOutput s (commandOutput s) d) (k : BitVec 64) :
    memRead (afterKs s k d) .dout 0 (payLen s) = commandOutput s := by
  have hread (a : Nat) (ha : a < (commandOutput s).length) :
      content (afterKs s k d) .dout a = (commandOutput s).getD a 0 := by
    have hstored : stored (afterKs s k d) .dout a = _ := h a
    exact content_of_stored (hstored.trans (if_pos (by simpa using ha)))
  simpa using memRead_eq_of_getD hread

/-! ### The beginning and the end of a command -/

/-- CHECK of legal parameters takes the machine to the first stage. -/
theorem check_run (hb : s.regs.status.busy = true) (hp : s.w.phase = 0x1) (hop : s.w.op = 0x01 ∨ s.w.op = 0x02)
    (hlegal : Legal s) : MicroRun s [.check] (beginCommand s) :=
  .single hb (by rw [hp]; rfl) (exec_check_pass (checkFailure_legal hlegal hop))

/-- The end of an ENCRYPT: the masked tag goes to TAGOUT (R176, R204). -/
theorem encrypt_end (hb : s.regs.status.busy = true) (hp : s.w.phase = 0x8) (hop : s.w.op = 0x01)
    (hport : s.port = none) : MicroRun s [.tagMask, .fin] (finished s false (maskedTag s) s.buf.dout) := by
  let v := { s with regs := { s.regs with tagOut := maskedTag s }, w := { s.w with phase := 0xA } }
  have hfin : exec .fin v = .next (finished s false (maskedTag s) s.buf.dout) := by
    refine (finCompletesTheCommand v).trans (congrArg _ ?_)
    simp only [v, finished, hop, ← hport]
    rfl
  exact .cons hb (by rw [hp]; rfl) (exec_tagMask_encrypt hop) (.single hb rfl hfin)

/-- The end of a DECRYPT: the masked tag is compared with TAGIN, and AUTHOK is the verdict (R176, R202, R204). -/
theorem decrypt_end (hb : s.regs.status.busy = true) (hp : s.w.phase = 0x8) (hop : s.w.op = 0x02)
    (hport : s.port = none) :
    ∃ authok : Bool,
      MicroRun s [.tagMask, .ctCompare, .fin] (finished s authok s.regs.tagOut s.buf.dout) ∧
        (authok = true ↔ ∀ j, j < tagLen s → byteAt (maskedTag s) j = byteAt s.regs.tagIn j) := by
  obtain ⟨authok, hcompare, hverdict⟩ := comparatorVerdict { s with w := { s.w with u := maskedTag s, phase := 0x9 } }
  let v := { s with w := { s.w with u := maskedTag s, aok := authok, phase := 0xA } }
  have hfin : exec .fin v = .next (finished s authok s.regs.tagOut s.buf.dout) := by
    refine (finCompletesTheCommand v).trans (congrArg _ ?_)
    simp only [v, finished, hop, ← hport, if_true]
  have hmask : exec .tagMask s = _ := exec_tagMask_decrypt (by simp [hop])
  exact ⟨authok, .cons hb (by rw [hp]; rfl) hmask (.cons hb rfl hcompare (.single hb rfl hfin)), hverdict⟩

/-! ### ENCRYPT -/

/-- The micro-operations of an ENCRYPT (R190). -/
def encryptOps (a n : Nat) : List Instr := [Instr.check] ++ macOps a n ++ ksOps n ++ [Instr.tagMask, Instr.fin]

/-- An ENCRYPT takes its tag over DIN, then masks the payload (R190). -/
theorem encrypt_run (hb : s.regs.status.busy = true) (hp : s.w.phase = 0x1) (hop : s.w.op = 0x01) (hlegal : Legal s) :
    ∃ d, MicroRun s (encryptOps (nA s) (nP s))
        (finished s false (commandTag (beginCommand s) (memRead s .din 0 (payLen s))) d) ∧
      HoldsOutput s (commandOutput (beginCommand s)) d := by
  have henc : isEncrypt s = true := isEncrypt_iff.mpr hop
  obtain ⟨j, x, hmac⟩ := mac_run (s := beginCommand s) hb (if_pos henc)
  obtain ⟨k, d, hks, hd⟩ := ks_run (s := afterMac (beginCommand s) j x) hb (if_pos henc)
  have hend := encrypt_end (s := afterKs (afterMac (beginCommand s) j x) k d) hb (if_pos henc) hop rfl
  have hsource : paySource (beginCommand s) = .din := if_pos henc
  rw [maskedTag_afterKs_afterMac, hsource] at hend
  have houtput := holdsOutput_of_masked hd
  have hrun := (((check_run hb hp (.inl hop) hlegal).append hmac).append hks).append hend
  exact ⟨d, hrun, houtput⟩

/-! ### DECRYPT -/

/-- The micro-operations of a DECRYPT (R191). -/
def decryptOps (a n : Nat) : List Instr :=
  [Instr.check] ++ ksOps n ++ macOps a n ++ [Instr.tagMask, Instr.ctCompare, Instr.fin]

/-- A DECRYPT recovers the payload, then takes the tag over what it recovered (R191). -/
theorem decrypt_run (hb : s.regs.status.busy = true) (hp : s.w.phase = 0x1) (hop : s.w.op = 0x02) (hlegal : Legal s) :
    ∃ (d : Memory) (authok : Bool),
      MicroRun s (decryptOps (nA s) (nP s)) (finished s authok s.regs.tagOut d) ∧
      (authok = true ↔ ∀ j, j < tagLen (beginCommand s) →
        byteAt (commandTag (beginCommand s) (commandOutput (beginCommand s))) j = byteAt s.regs.tagIn j) ∧
      HoldsOutput s (commandOutput (beginCommand s)) d := by
  have henc : isEncrypt s = false := Bool.eq_false_of_not_eq_true (mt isEncrypt_iff.mp (by simp [hop]))
  have hne : ¬isEncrypt s = true := by simp [henc]
  obtain ⟨k, d, hks, hd⟩ := ks_run (s := beginCommand s) hb (if_neg hne)
  obtain ⟨j, x, hmac⟩ := mac_run (s := afterKs (beginCommand s) k d) hb (if_neg hne)
  obtain ⟨authok, hend, hverdict⟩ :=
    decrypt_end (s := afterMac (afterKs (beginCommand s) k d) j x) hb (if_neg hne) hop rfl
  have hsource : paySource (afterKs (beginCommand s) k d) = .dout := if_neg hne
  have houtput := holdsOutput_of_masked (s := beginCommand s) hd
  rw [maskedTag_afterMac_afterKs, hsource, houtput.memRead_afterKs] at hverdict
  exact ⟨d, authok, (((check_run hb hp (.inr hop) hlegal).append hks).append hmac).append hend, hverdict, houtput⟩

/-! ### The sequences and their cipher calls -/

theorem encryptOps_eq (a n : Nat) :
    encryptOps a n = [Instr.check, Instr.macB0] ++ List.replicate a Instr.macAad ++ List.replicate n Instr.macPay ++
      [Instr.macFinal, Instr.ksS0] ++ List.replicate n Instr.ksBlk ++ [Instr.tagMask, Instr.fin] := by
  simp [encryptOps, macOps, ksOps]

theorem decryptOps_eq (a n : Nat) :
    decryptOps a n = [Instr.check, Instr.ksS0] ++ List.replicate n Instr.ksBlk ++ [Instr.macB0] ++
      List.replicate a Instr.macAad ++ List.replicate n Instr.macPay ++
      [Instr.macFinal, Instr.tagMask, Instr.ctCompare, Instr.fin] := by
  simp [decryptOps, macOps, ksOps]

theorem macOps_length (a n : Nat) : (macOps a n).length = 2 + a + n := by
  simp only [macOps, List.length_append, List.length_replicate, List.length_cons, List.length_nil]
  omega

theorem ksOps_length (n : Nat) : (ksOps n).length = 1 + n := by
  simp only [ksOps, List.length_append, List.length_replicate, List.length_cons, List.length_nil]

theorem encryptOps_length (a n : Nat) : (encryptOps a n).length = 6 + a + 2 * n := by
  simp only [encryptOps, List.length_append, macOps_length, ksOps_length, List.length_cons, List.length_nil]
  omega

theorem decryptOps_length (a n : Nat) : (decryptOps a n).length = 7 + a + 2 * n := by
  simp only [decryptOps, List.length_append, macOps_length, ksOps_length, List.length_cons, List.length_nil]
  omega

/-- The MAC stage calls the cipher for B0 and once per block of AAD and payload. -/
theorem countP_macOps (a n : Nat) : (macOps a n).countP callsCipher = 1 + a + n := by
  simp [macOps, List.countP_cons, List.countP_replicate, callsCipher, Nat.add_assoc, Nat.add_comm, Nat.add_left_comm]

/-- The keystream stage calls the cipher for A0 and once per payload block. -/
theorem countP_ksOps (n : Nat) : (ksOps n).countP callsCipher = 1 + n := by
  simp [ksOps, List.countP_cons, List.countP_replicate, callsCipher, Nat.add_comm]

theorem countP_encryptOps (a n : Nat) : (encryptOps a n).countP callsCipher = 2 + a + 2 * n := by
  simp only [encryptOps, List.countP_append, countP_macOps, countP_ksOps, List.countP_cons, List.countP_nil,
    callsCipher, Bool.false_eq_true, if_false]
  omega

theorem countP_decryptOps (a n : Nat) : (decryptOps a n).countP callsCipher = 2 + a + 2 * n := by
  simp only [decryptOps, List.countP_append, countP_macOps, countP_ksOps, List.countP_cons, List.countP_nil,
    callsCipher, Bool.false_eq_true, if_false]
  omega

/-- Settles O55: the run of an ENCRYPT, and the cipher calls of its two stages. -/
theorem encryptSequence : Obligations.EncryptSequence := by
  intro s ts hsound hp hop hlegal hturns
  have hb : s.regs.status.busy = true := hsound.busy_iff.mpr (by simp [hp])
  obtain ⟨d, hrun, -⟩ := encrypt_run hb hp hop hlegal
  have htrace := hrun.trace ts
  rw [encryptOps_length, ← hturns, withTurns_turns] at htrace
  rw [htrace, ← encryptOps_eq, countP_encryptOps]
  exact ⟨rfl, rfl⟩

/-- Settles O56: the run of a DECRYPT, and the cipher calls of its two stages. -/
theorem decryptSequence : Obligations.DecryptSequence := by
  intro s ts hsound hp hop hlegal hturns
  have hb : s.regs.status.busy = true := hsound.busy_iff.mpr (by simp [hp])
  obtain ⟨d, authok, hrun, -, -⟩ := decrypt_run hb hp hop hlegal
  have htrace := hrun.trace ts
  rw [decryptOps_length, ← hturns, withTurns_turns] at htrace
  rw [htrace, ← decryptOps_eq, countP_decryptOps]
  exact ⟨rfl, rfl⟩

/-! ### The results of a command the HOST issues -/

/-- The machine that has accepted the command `v` of the HOST, whose later transactions are `hs`. -/
def accepted (s : State) (hs : List (BitVec 75)) (v : Byte) : State :=
  acceptCommand { s with env := { s.env with host := hs } } v

/-- A command of the HOST's and the ENGINE's turns after it: the micro-operations from acceptance on. -/
theorem run_command {t : State} {is : List Instr} {i : Instr} {v : Byte} {hs : List (BitVec 75)} {ts : List Turn}
    (hidle : s.regs.status.busy = false) (hi : i = .encrypt ∧ v = 0x01 ∨ i = .decrypt ∧ v = 0x02)
    (hhost : s.env.host = encodeHtx i :: hs)
    (hturns : s.env.turns = .host :: (List.replicate is.length .engine ++ ts))
    (hrun : MicroRun (accepted s hs v) is t) : Sys2Proof.core.run (is.length + 1) s = .next (withTurns t ts) := by
  have hdecode : decodeHtx (encodeHtx i) = i := by
    obtain ⟨rfl, -⟩ | ⟨rfl, -⟩ := hi
    all_goals exact decodeHtx_encodeHtx rfl rfl
  have hstep : step s = .next (withTurns (accepted s hs v) (List.replicate is.length .engine ++ ts)) := by
    rw [step_host_cons hturns hhost, hdecode]
    exact commandAcceptance _ i v hidle (hi.imp_right .inl)
  exact (run_succ_of_step hstep _).trans (hrun.run ts)

/-- An idle engine that has taken a command to its end holds the results, and everything else is as it was. -/
theorem finished_accepted (hsound : Sound s) (hidle : s.regs.status.busy = false) (hs : List (BitVec 75)) (v : Byte)
    (authok : Bool) (tagOut : Vector Byte 16) (d : Memory) (ts : List Turn) :
    withTurns (finished (accepted s hs v) authok tagOut d) ts = { s with
      regs := { s.regs with
        status := { busy := false, done := true, authok := authok, wign := s.regs.status.wign }
        err := { code := 0, cause := 0 }
        tagOut := tagOut }
      buf := { s.buf with dout := d }
      env := { s.env with host := hs, turns := ts } } := by
  rw [hsound.idle_clear hidle, hsound.port_of_idle hidle]
  rfl

/-- The output of the command of `s`, whose parameters are those of its registers (R190, R191). -/
def ccmOutput (s : State) : List Byte :=
  applyKeystream (keyBytes s) (nonceBytes s) (15 - nonceLen s) (memRead s .din 0 (payLen s))

/-- The masked tag over this plaintext (R190, R191). -/
def ccmTag (s : State) (plain : List Byte) : Block :=
  maskTag (keyBytes s) (nonceBytes s) s.regs.tLen.toNat (15 - nonceLen s)
    (messageMac (keyBytes s) (nonceBytes s) (memRead s .aad 0 (aadLen s)) plain s.regs.tLen.toNat (15 - nonceLen s))

theorem commandOutput_beginCommand (h : Legal s) : commandOutput (beginCommand s) = ccmOutput s := by
  have hl : lenWidth (beginCommand s) = 15 - nonceLen s := h.fits.1
  rw [commandOutput, hl]
  rfl

theorem commandTag_beginCommand (h : Legal s) (plain : List Byte) :
    commandTag (beginCommand s) plain = ccmTag s plain := by
  have hl : lenWidth (beginCommand s) = 15 - nonceLen s := h.fits.1
  have hm : tagLen (beginCommand s) = s.regs.tLen.toNat := h.fits.2
  rw [commandTag, commandMac, hl, hm]
  rfl

theorem Legal.accepted (h : Legal s) (hs : List (BitVec 75)) (v : Byte) : Legal (accepted s hs v) :=
  h.congr rfl rfl rfl rfl rfl rfl

/-- Settles O57: the run of an ENCRYPT from its acceptance on. -/
theorem encryptComputesCcm : Obligations.EncryptComputesCcm := by
  intro s hs ts hsound hidle hlegal hhost hturns l m aad plain output
  have hlegal' := hlegal.accepted hs 0x01
  obtain ⟨d, hrun, hd⟩ := encrypt_run rfl rfl rfl hlegal'
  rw [commandTag_beginCommand hlegal'] at hrun
  rw [commandOutput_beginCommand hlegal'] at hd
  have hfinal := run_command (ts := ts) hidle (.inl ⟨rfl, rfl⟩) hhost (by rw [encryptOps_length]; exact hturns) hrun
  rw [encryptOps_length, finished_accepted hsound hidle] at hfinal
  have hcount : 7 + nA s + 2 * nP s = 6 + nA s + 2 * nP s + 1 := by omega
  rw [hcount]
  exact ⟨d, hfinal, hd⟩

/-- Settles O58: the run of a DECRYPT from its acceptance on. -/
theorem decryptComputesCcm : Obligations.DecryptComputesCcm := by
  intro s hs ts hsound hidle hlegal hhost hturns l m aad output u
  have hlegal' := hlegal.accepted hs 0x02
  obtain ⟨d, authok, hrun, hverdict, hd⟩ := decrypt_run rfl rfl rfl hlegal'
  have hm : tagLen (beginCommand (accepted s hs 0x02)) = m := hlegal'.fits.2
  rw [commandOutput_beginCommand hlegal', commandTag_beginCommand hlegal', hm] at hverdict
  rw [commandOutput_beginCommand hlegal'] at hd
  have hfinal := run_command (ts := ts) hidle (.inr ⟨rfl, rfl⟩) hhost (by rw [decryptOps_length]; exact hturns) hrun
  rw [decryptOps_length, finished_accepted hsound hidle] at hfinal
  have hcount : 8 + nA s + 2 * nP s = 7 + nA s + 2 * nP s + 1 := by omega
  rw [hcount]
  exact ⟨d, authok, hfinal, hverdict, hd⟩

end Sys2Proof.Machine
end

section
/-! PROOFS. What follows of the results of both commands (R208, R211 of spec/44_orchestration_compare.md): they depend
on the inputs alone, and a DECRYPT undoes an ENCRYPT. -/

namespace Sys2Proof.Machine

variable {s t : State}

@[simp] theorem ccmOutput_length (s : State) : (ccmOutput s).length = payLen s := by simp [ccmOutput]

/-- `MemRead` finds the same where the bytes are the same. -/
theorem memRead_congr {b : Buffer} {n : Nat} (h : ∀ a, a < n → content t b a = content s b a) :
    memRead t b 0 n = memRead s b 0 n :=
  List.map_congr_left fun j hj => by rw [Nat.zero_add, h j (List.mem_range.mp hj)]

/-- Masking twice with the same keystream gives the bytes back. -/
theorem applyKeystream_applyKeystream (key nonce : List Byte) (l : Nat) (data : List Byte) :
    applyKeystream key nonce l (applyKeystream key nonce l data) = data := by
  refine Eq.trans ?_ (map_getD_range data)
  rw [applyKeystream, applyKeystream_length]
  refine List.map_congr_left fun j hj => ?_
  rw [applyKeystream_getD _ _ _ (List.mem_range.mp hj), BitVec.xor_assoc, BitVec.xor_self, BitVec.xor_zero]

/-- The inputs of a command but for the payload and the tag it is compared with: key, nonce, tag length and AAD, each in
the bytes the parameters name. -/
structure SameInputs (s t : State) : Prop where
  key : keyBytes t = keyBytes s
  nonce : nonceBytes t = nonceBytes s
  nLen : t.regs.nLen = s.regs.nLen
  tLen : t.regs.tLen = s.regs.tLen
  aLen : t.regs.aLen = s.regs.aLen
  pLen : t.regs.pLen = s.regs.pLen
  aad : ∀ a, a < aadLen s → content t .aad a = content s .aad a

namespace SameInputs

theorem payLen_eq (h : SameInputs s t) : payLen t = payLen s := congrArg BitVec.toNat h.pLen

theorem nA_eq (h : SameInputs s t) : nA t = nA s := congrArg (aadBlocks ∘ BitVec.toNat) h.aLen

theorem nP_eq (h : SameInputs s t) : nP t = nP s := congrArg payBlocks h.payLen_eq

theorem ccmTag_eq (h : SameInputs s t) (plain : List Byte) : ccmTag t plain = ccmTag s plain := by
  have hnLen : nonceLen t = nonceLen s := congrArg BitVec.toNat h.nLen
  have haLen : aadLen t = aadLen s := congrArg BitVec.toNat h.aLen
  rw [ccmTag, h.key, h.nonce, hnLen, h.tLen, haLen, memRead_congr h.aad, ccmTag]

theorem ccmOutput_eq (h : SameInputs s t) {data : List Byte} (hdata : memRead t .din 0 (payLen s) = data) :
    ccmOutput t = applyKeystream (keyBytes s) (nonceBytes s) (15 - nonceLen s) data := by
  have hnLen : nonceLen t = nonceLen s := congrArg BitVec.toNat h.nLen
  rw [ccmOutput, h.key, h.nonce, hnLen, h.payLen_eq, hdata]

end SameInputs

/-- What the HOST finds after an ENCRYPT it issued (R190). -/
theorem encrypt_results {hs : List (BitVec 75)} {ts : List Turn} (hsound : Sound s)
    (hidle : s.regs.status.busy = false) (hlegal : Legal s) (hhost : s.env.host = encodeHtx .encrypt :: hs)
    (hturns : s.env.turns = .host :: (List.replicate (6 + nA s + 2 * nP s) .engine ++ ts))
    (hrun : Sys2Proof.core.run (7 + nA s + 2 * nP s) s = .next t) :
    (∀ a, a < payLen s → stored t .dout a = some ((ccmOutput s).getD a 0)) ∧
      t.regs.tagOut = ccmTag s (memRead s .din 0 (payLen s)) ∧ t.regs.status.authok = false ∧
      t.regs.err = Err.none := by
  obtain ⟨d, hfinal, hd⟩ := encryptComputesCcm s hs ts hsound hidle hlegal hhost hturns
  cases hfinal.symm.trans hrun
  exact ⟨fun a ha => (hd a).trans (if_pos ha), rfl, rfl, rfl⟩

/-- A DECRYPT the HOST issued comes to its end, and what the HOST finds then (R191). -/
theorem decrypt_results {hs : List (BitVec 75)} {ts : List Turn} (hsound : Sound s)
    (hidle : s.regs.status.busy = false) (hlegal : Legal s) (hhost : s.env.host = encodeHtx .decrypt :: hs)
    (hturns : s.env.turns = .host :: (List.replicate (7 + nA s + 2 * nP s) .engine ++ ts)) :
    ∃ t, Sys2Proof.core.run (8 + nA s + 2 * nP s) s = .next t ∧
      (∀ a, a < payLen s → stored t .dout a = some ((ccmOutput s).getD a 0)) ∧
      (t.regs.status.authok = true ↔
        ∀ j, j < s.regs.tLen.toNat → byteAt (ccmTag s (ccmOutput s)) j = byteAt s.regs.tagIn j) ∧
      t.regs.status.done = true ∧ t.regs.err = Err.none := by
  obtain ⟨d, authok, hfinal, hverdict, hd⟩ := decryptComputesCcm s hs ts hsound hidle hlegal hhost hturns
  exact ⟨_, hfinal, fun a ha => (hd a).trans (if_pos ha), hverdict, rfl, rfl⟩

/-- Settles O59: masking undoes itself, and the tags of both commands are over the same plaintext. -/
theorem decryptOfEncryptAuthenticates : Obligations.DecryptOfEncryptAuthenticates := by
  intro s t s₂ hs hs₂ ts ts₂ hsound hidle hlegal hhost hturns hrun hsound₂ hidle₂ hcaps hkeyLen hkey hnLen hnonce htLen
    haLen hpLen haad hdin htag hhost₂ hturns₂
  have hin : SameInputs s s₂ :=
    ⟨by simp only [keyBytes, hkey, hkeyLen], by simp only [nonceBytes, nonceLen, hnonce, hnLen], hnLen, htLen, haLen,
      hpLen, haad⟩
  have hlegal₂ : Legal s₂ := hlegal.congr hkeyLen hnLen htLen haLen hpLen hcaps
  obtain ⟨hout, htagOut, -⟩ := encrypt_results hsound hidle hlegal hhost hturns hrun
  rw [← hin.nA_eq, ← hin.nP_eq] at hturns₂ ⊢
  obtain ⟨t₂, hrun₂, hout₂, hverdict, hdone, herr⟩ := decrypt_results hsound₂ hidle₂ hlegal₂ hhost₂ hturns₂
  have hcipher : memRead s₂ .din 0 (payLen s) = ccmOutput s := by
    simpa using memRead_eq_of_getD (l := ccmOutput s) fun a ha => by
      have ha : a < payLen s := by simpa using ha
      rw [hdin a ha, content_of_stored (hout a ha)]
  have hplain : ccmOutput s₂ = memRead s .din 0 (payLen s) :=
    (hin.ccmOutput_eq hcipher).trans (applyKeystream_applyKeystream _ _ _ _)
  have hsameTag : ccmTag s₂ (ccmOutput s₂) = t.regs.tagOut := by rw [hin.ccmTag_eq, hplain, htagOut]
  refine ⟨t₂, hrun₂, hverdict.mpr fun j hj => ?_, hdone, by rw [herr]; rfl, fun a ha => ?_⟩
  · rw [hsameTag, htag j (htLen ▸ hj)]
  · rw [hout₂ a (hin.payLen_eq ▸ ha), hplain, memRead_getD _ _ _ ha, Nat.zero_add]

/-- Settles O60: the results are given by the inputs, for both commands. -/
theorem resultsDependOnlyOnTheInputs : Obligations.ResultsDependOnlyOnTheInputs := by
  intro s s₂ t t₂ i k hs hs₂ ts ts₂ hi hsound hsound₂ hidle hidle₂ hlegal hhost hhost₂ hturns hturns₂ hcaps hkeyLen
    hnLen htLen haLen hpLen hkey hnonce haad hdin htagIn hrun hrun₂
  have hin : SameInputs s s₂ := ⟨hkey, hnonce, hnLen, htLen, haLen, hpLen, haad⟩
  have hlegal₂ : Legal s₂ := hlegal.congr hkeyLen hnLen htLen haLen hpLen hcaps
  have hplain : memRead s₂ .din 0 (payLen s) = memRead s .din 0 (payLen s) := memRead_congr hdin
  have houtput : ccmOutput s₂ = ccmOutput s := hin.ccmOutput_eq hplain
  obtain ⟨rfl, rfl⟩ | ⟨rfl, rfl⟩ := hi
  · rw [show 6 + nA s + 2 * nP s + 1 = 7 + nA s + 2 * nP s by omega] at hrun hrun₂
    rw [← hin.nA_eq, ← hin.nP_eq] at hturns₂ hrun₂
    obtain ⟨hout, htag, hauthok, herr⟩ := encrypt_results hsound hidle hlegal hhost hturns hrun
    obtain ⟨hout₂, htag₂, hauthok₂, herr₂⟩ := encrypt_results hsound₂ hidle₂ hlegal₂ hhost₂ hturns₂ hrun₂
    refine ⟨fun a ha => ?_, fun _ => ?_, ?_, ?_⟩
    · rw [hout a ha, hout₂ a (hin.payLen_eq ▸ ha), houtput]
    · rw [htag, htag₂, hin.payLen_eq, hplain, hin.ccmTag_eq]
    · rw [hauthok, hauthok₂]
    · rw [herr, herr₂]
  · rw [show 7 + nA s + 2 * nP s + 1 = 8 + nA s + 2 * nP s by omega] at hrun hrun₂
    rw [← hin.nA_eq, ← hin.nP_eq] at hturns₂ hrun₂
    obtain ⟨u, hu, hout, hverdict, -, herr⟩ := decrypt_results hsound hidle hlegal hhost hturns
    obtain ⟨u₂, hu₂, hout₂, hverdict₂, -, herr₂⟩ := decrypt_results hsound₂ hidle₂ hlegal₂ hhost₂ hturns₂
    cases hu.symm.trans hrun
    cases hu₂.symm.trans hrun₂
    refine ⟨fun a ha => ?_, nofun, ?_, ?_⟩
    · rw [hout a ha, hout₂ a (hin.payLen_eq ▸ ha), houtput]
    · rw [Bool.eq_iff_iff, hverdict, hverdict₂, hin.ccmTag_eq, houtput, htLen]
      exact forall₂_congr fun j hj => by rw [htagIn rfl j hj]
    · rw [herr, herr₂]

end Sys2Proof.Machine
end

section
/-! PROOFS. Errors (spec/60_exceptions.md): a machine with the invariant never stops (R232), and a rejected command
reports its failure and does nothing else (R236). -/

namespace Sys2Proof.Machine

variable {s : State}

/-! ### Nothing stops the machine -/

/-- The one instruction without an answer is a reserved code of W.PHASE (R111). -/
theorem exec_answers {i : Instr} (hi : ∀ low, i ≠ .phaseRsvd low) (s : State) : ∃ t, exec i s = .next t := by
  cases hhost : i.isHost with
  | true => exact (exec_host hhost s).imp fun _ => And.left
  | false =>
    cases i with
    | check =>
      cases hcheck : checkFailure s with
      | none => exact ⟨_, exec_check_pass hcheck⟩
      | some failure => exact ⟨_, exec_check_reject hcheck⟩
    | phaseRsvd low => exact absurd rfl (hi low)
    | idle | macB0 | macAad | macPay | macFinal | ksS0 | ksBlk | tagMask | ctCompare | fin | errfin => exact ⟨_, rfl⟩
    | cmdNop | encrypt | decrypt | cmdRsvd _ | statusW _ | regWr _ _ | regRd _ => contradiction
    | aadWr _ _ | aadRd _ | dinWr _ _ | dinRd _ | doutWr _ _ | doutRd _ => contradiction

/-- The codes up to 0xB are assigned (R110). -/
theorem decodePhase_ne_phaseRsvd {c : BitVec 4} (h : c.toNat ≤ 0xB) (low : BitVec 2) :
    decodePhase c ≠ .phaseRsvd low := by
  revert c low
  decide

/-- Settles O46: a host transaction always answers, and the invariant keeps W.PHASE off the reserved codes. -/
theorem soundStateNeverStops : Obligations.SoundStateNeverStops := by
  intro s hsound
  obtain ⟨turn, ts, d, hturn⟩ := takeTurn_eq s
  simp only [step, hturn]
  cases turn with
  | host =>
    cases s.env.host with
    | nil => exact ⟨_, rfl⟩
    | cons w hs => exact (exec_host (decodeHtx_isHost w) _).imp fun _ => And.left
  | engine =>
    simp only
    split
    · exact exec_answers (decodePhase_ne_phaseRsvd hsound.phase_le) _
    · exact ⟨_, rfl⟩
  | wait | reset => exact ⟨_, rfl⟩

/-! ### A rejected command -/

/-- The HOST's turn of an idle engine takes its command, assigned or reserved, to acceptance (R192). -/
theorem step_command {i : Instr} {v : Byte} {hs : List (BitVec 75)} {ts : List Turn}
    (hidle : s.regs.status.busy = false)
    (hi : i = .encrypt ∧ v = 0x01 ∨ i = .decrypt ∧ v = 0x02 ∨ i = .cmdRsvd v ∧ 3 ≤ v.toNat)
    (hhost : s.env.host = encodeHtx i :: hs) (hturns : s.env.turns = .host :: ts) :
    step s = .next (withTurns (accepted s hs v) ts) := by
  have hdecode : decodeHtx (encodeHtx i) = i := by
    obtain ⟨rfl, -⟩ | ⟨rfl, -⟩ | ⟨rfl, hv⟩ := hi
    · exact decodeHtx_encodeHtx rfl rfl
    · exact decodeHtx_encodeHtx rfl rfl
    · exact decodeHtx_encodeHtx (decide_eq_true hv) rfl
  rw [step_host_cons hturns hhost, hdecode]
  exact commandAcceptance _ i v hidle hi

/-- A command that fails a check is over after CHECK and ERRFIN (R195, R203). -/
theorem reject_run {code : BitVec 2} {cause : BitVec 3} (hb : s.regs.status.busy = true) (hp : s.w.phase = 0x1)
    (h : checkFailure s = some (code, cause)) :
    MicroRun s [.check, .errfin] (complete (failCheck s code cause) { code := code, cause := cause } false) :=
  .cons hb (congrArg decodePhase hp) (exec_check_reject h) (.single hb rfl rfl)

/-- Settles O53: acceptance and the rejected run; what they do to the working registers ERRFIN clears. -/
theorem rejectedCommandLeavesNoResult : Obligations.RejectedCommandLeavesNoResult := by
  intro s i v code cause hs ts hsound hidle hhost hturns hi hfail
  have hrun : MicroRun (accepted s hs v) [.check, .errfin] _ := reject_run rfl rfl hfail
  rw [run_succ_of_step (step_command hidle hi hhost hturns)]
  refine (hrun.run ts).trans ?_
  rw [hsound.idle_clear hidle]
  rfl

end Sys2Proof.Machine
end

section
/-! PROOFS. Reset (R260 to R262 of spec/70_reset_and_hazards.md): what it leaves, and the command issued right after
it. -/

namespace Sys2Proof.Machine

/-- After a reset every buffer byte is the one drawn for that reset (R261; log 5). -/
theorem content_takeReset (s : State) (b : Buffer) (off : Nat) :
    content (takeReset s) b off = Config.initialByte b (s.env.resets + 1) off := by
  have hstored : stored (takeReset s) b off = none := by cases b <;> rfl
  rw [content, hstored]
  rfl

/-- Settles O10: the planned reset is taken whatever the engine is doing. -/
theorem resetIsOneStepFromEveryState : Obligations.ResetIsOneStepFromEveryState := fun s ts hturn =>
  ⟨takeReset (withTurns s ts), step_reset hturn, rfl, rfl, content_takeReset (withTurns s ts)⟩

/-- Settles O54: KEYLEN is 0 after reset, so CHECK rejects either command. -/
theorem commandAfterResetFails : Obligations.CommandAfterResetFails := by
  intro i hi
  have fails {v : Byte} (hv : i = .encrypt ∧ v = 0x01 ∨ i = .decrypt ∧ v = 0x02 ∨ i = .cmdRsvd v ∧ 3 ≤ v.toNat)
      (hkey : checkFailure { State.reset with w := { Work.clear with op := v } } = some (1, 2)) :=
    rejectedCommandLeavesNoResult _ i v 1 2 [] [] (resetHasTheInvariant _ _) rfl rfl rfl hv hkey
  obtain rfl | rfl := hi
  · exact ⟨_, fails (.inl ⟨rfl, rfl⟩) rfl, rfl, rfl⟩
  · exact ⟨_, fails (.inr (.inl ⟨rfl, rfl⟩)) rfl, rfl, rfl⟩

end Sys2Proof.Machine
end

section
/-! PROOFS. Progress, step by step (R271, R272 of spec/70_reset_and_hazards.md): each micro-operation of an executing
command takes one from the steps left, and a rejection leaves only ERRFIN. -/

namespace Sys2Proof.Machine

variable {s t : State}

/-! ### The steps left at each micro-operation -/

/-- The steps left are counted from what the sequencer looks at. -/
theorem SameSequence.stepsLeft_eq (h : SameSequence s t) : stepsLeft s = stepsLeft t := by
  simp only [stepsLeft, h.busy, h.phase, h.idx, h.isEncrypt_eq, h.nA_eq, h.nP_eq]

theorem stepsLeft_idle (h : s.regs.status.busy = false) : stepsLeft s = 0 := by
  rw [stepsLeft, h]
  rfl

theorem stepsLeft_of_phase {p : BitVec 4} (h : s.w.phase = p) : stepsLeft s = stepsLeft (enter s p) := by
  subst h
  rfl

theorem stepsLeft_of_phase_idx {p : BitVec 4} (h : s.w.phase = p) :
    stepsLeft s = stepsLeft (enterAt s s.w.idx p) := stepsLeft_of_phase h

theorem stepsLeft_enter_ite (s : State) (c : Prop) [Decidable c] (p q : BitVec 4) :
    stepsLeft (enter s (if c then p else q)) = if c then stepsLeft (enter s p) else stepsLeft (enter s q) :=
  apply_ite (fun p => stepsLeft (enter s p)) c p q

section Executing

variable (hb : s.regs.status.busy = true)
include hb

theorem stepsLeft_check : stepsLeft (enter s 0x1) =
    if isEncrypt s then 6 + nA s + 2 * nP s else 7 + nA s + 2 * nP s := if_pos hb

theorem stepsLeft_macB0 : stepsLeft (enter s 0x2) =
    if isEncrypt s then 5 + nA s + 2 * nP s else 5 + nA s + nP s := if_pos hb

theorem stepsLeft_macAad (k : BitVec 64) : stepsLeft (enterAt s k 0x3) =
    if isEncrypt s then 4 + (nA s - k.toNat) + 2 * nP s else 4 + (nA s - k.toNat) + nP s := if_pos hb

theorem stepsLeft_macPay (k : BitVec 64) : stepsLeft (enterAt s k 0x4) =
    if isEncrypt s then 4 + (nP s - k.toNat) + nP s else 4 + (nP s - k.toNat) := if_pos hb

theorem stepsLeft_macFinal : stepsLeft (enter s 0x5) = if isEncrypt s then 4 + nP s else 4 := if_pos hb

theorem stepsLeft_ksS0 : stepsLeft (enter s 0x6) =
    if isEncrypt s then 3 + nP s else 6 + nA s + 2 * nP s := if_pos hb

theorem stepsLeft_ksBlk (k : BitVec 64) : stepsLeft (enterAt s k 0x7) =
    if isEncrypt s then 3 + (nP s - k.toNat) else 6 + nA s + nP s + (nP s - k.toNat) := if_pos hb

theorem stepsLeft_tagMask : stepsLeft (enter s 0x8) = if isEncrypt s then 2 else 3 := if_pos hb

theorem stepsLeft_ctCompare : stepsLeft (enter s 0x9) = 2 := if_pos hb

theorem stepsLeft_fin : stepsLeft (enter s 0xA) = 1 := if_pos hb

theorem stepsLeft_errfin : stepsLeft (enter s 0xB) = 1 := if_pos hb

/-! ### The steps left where a block is next -/

/-- From payload block `j` of the MAC on. -/
theorem stepsLeft_payFrom {j : Nat} {k : BitVec 64} (hk : j < nP s → k.toNat = j) :
    stepsLeft (if j < nP s then enterAt s k 0x4 else enter s 0x5) =
      if isEncrypt s then 4 + (nP s - j) + nP s else 4 + (nP s - j) := by
  split
  · rw [stepsLeft_macPay hb, hk ‹_›]
  · rw [stepsLeft_macFinal hb]
    split <;> omega

theorem stepsLeft_enterPayload :
    stepsLeft (enterPayload s) = if isEncrypt s then 4 + nP s + nP s else 4 + nP s :=
  stepsLeft_payFrom hb (j := 0) fun _ => rfl

/-- From AAD block `j` of the MAC on. -/
theorem stepsLeft_aadFrom {j : Nat} {k : BitVec 64} (hk : j < nA s → k.toNat = j) :
    stepsLeft (if j < nA s then enterAt s k 0x3 else enterPayload s) =
      if isEncrypt s then 4 + (nA s - j) + 2 * nP s else 4 + (nA s - j) + nP s := by
  split
  · rw [stepsLeft_macAad hb, hk ‹_›]
  · rw [stepsLeft_enterPayload hb]
    split <;> omega

/-- After `j` payload blocks of the keystream; the next one, if there is any, is number `j + 1`. -/
theorem stepsLeft_ksFrom {j : Nat} {k : BitVec 64} (hk : j < nP s → k.toNat = j + 1) :
    stepsLeft (if j < nP s then enterAt s k 0x7 else leaveKeystream s) =
      if isEncrypt s then 2 + (nP s - j) else 5 + nA s + nP s + (nP s - j) := by
  split
  · rw [stepsLeft_ksBlk hb, hk ‹_›]
    split <;> omega
  · rw [leaveKeystream, stepsLeft_enter_ite, stepsLeft_tagMask hb, stepsLeft_macB0 hb]
    split_ifs <;> omega

end Executing

/-! ### Where each micro-operation takes the sequencer -/

theorem setX_sameSequence (s : State) (x : Block) : SameSequence (setX s x) s := by constructor <;> rfl

theorem exec_macB0_sequence (h : exec .macB0 s = .next t) :
    SameSequence t (if 0 < nA s then enterAt s 0 0x3 else enterPayload s) := by
  cases h
  exact .ite Iff.rfl ((setX_sameSequence s _).enterAt rfl _) (setX_sameSequence s _).enterPayload

theorem exec_macAad_sequence (h : exec .macAad s = .next t) :
    SameSequence t (if s.w.idx.toNat + 1 < nA s then enterAt s (s.w.idx + 1) 0x3 else enterPayload s) := by
  cases h
  exact .ite Iff.rfl ((setX_sameSequence s _).enterAt rfl _) (setX_sameSequence s _).enterPayload

theorem exec_macPay_sequence (h : exec .macPay s = .next t) :
    SameSequence t (if s.w.idx.toNat + 1 < nP s then enterAt s (s.w.idx + 1) 0x4 else enter s 0x5) := by
  cases h
  exact .ite Iff.rfl ((setX_sameSequence s _).enterAt rfl _)
    { (setX_sameSequence s (cipher s (macPayInput s))) with phase := rfl }

theorem exec_macFinal_sequence (h : exec .macFinal s = .next t) :
    SameSequence t (enter s (if isEncrypt s then 0x6 else 0x8)) := by
  cases h
  have ht (x : Block) : SameSequence { s with w := { s.w with t := x } } s := by constructor <;> rfl
  exact (ht _).enter _

theorem exec_ksS0_sequence (h : exec .ksS0 s = .next t) :
    SameSequence t (if 0 < nP s then enterAt s 1 0x7 else leaveKeystream s) := by
  cases h
  have hs0 (x : Block) : SameSequence { answered s with w := { s.w with s0 := x } } s := by constructor <;> rfl
  exact .ite Iff.rfl ((hs0 _).enterAt rfl _) (hs0 _).leaveKeystream

theorem exec_ksBlk_sequence (h : exec .ksBlk s = .next t) :
    SameSequence t (if s.w.idx.toNat < nP s then enterAt s (s.w.idx + 1) 0x7 else leaveKeystream s) := by
  cases h
  have hwrite : SameSequence (memWrite (answered s) .dout (ksOffset s) (ksBytes s)) s := by constructor <;> simp
  exact .ite Iff.rfl (hwrite.enterAt rfl _) hwrite.leaveKeystream

theorem exec_tagMask_sequence (h : exec .tagMask s = .next t) :
    SameSequence t (enter s (if isEncrypt s then 0xA else 0x9)) := by
  cases h
  have htag (x : Block) : SameSequence { s with regs := { s.regs with tagOut := x } } s := by constructor <;> rfl
  have hu (x : Block) : SameSequence { s with w := { s.w with u := x } } s := by constructor <;> rfl
  rw [apply_ite (enter s)]
  exact .ite Iff.rfl ((htag _).enter _) ((hu _).enter _)

theorem exec_ctCompare_sequence (h : exec .ctCompare s = .next t) : SameSequence t (enter s 0xA) := by
  cases h
  constructor <;> rfl

/-! ### The micro-operations -/

/-- CHECK either rejects the command, and ERRFIN is left, or begins it. -/
theorem stepsLeft_after_check (hb : s.regs.status.busy = true) (hp : s.w.phase = 0x1) (h : exec .check s = .next t) :
    stepsLeft t + 1 = stepsLeft s ∨ stepsLeft t = 1 := by
  cases hcheck : checkFailure s with
  | some failure =>
    cases (exec_check_reject hcheck).symm.trans h
    exact .inr (if_pos hb)
  | none =>
    cases (exec_check_pass hcheck).symm.trans h
    have hseq : SameSequence (beginCommand s) (enter s (if isEncrypt s then 0x2 else 0x6)) := by constructor <;> rfl
    rw [hseq.stepsLeft_eq, stepsLeft_enter_ite, stepsLeft_macB0 hb, stepsLeft_ksS0 hb, stepsLeft_of_phase hp,
      stepsLeft_check hb]
    split_ifs <;> omega

/-- The micro-operations after CHECK take one step each; the invariant keeps the block index in its range (R45). -/
theorem stepsLeft_after_exec (hsound : Sound s) (hb : s.regs.status.busy = true)
    (h : exec (decodePhase s.w.phase) s = .next t) :
    stepsLeft t + 1 = stepsLeft s ∨ s.w.phase = 0x1 ∧ stepsLeft t = 1 := by
  obtain ⟨hp, hd⟩ | ⟨hp, hd⟩ | ⟨hp, hd⟩ | ⟨hp, hd⟩ | ⟨hp, hd⟩ | ⟨hp, hd⟩ | ⟨hp, hd⟩ | ⟨hp, hd⟩ | ⟨hp, hd⟩ | ⟨hp, hd⟩ |
    ⟨hp, hd⟩ | ⟨hp, hd⟩ | ⟨hp, hd⟩ := decodePhase_cases s.w.phase <;> rw [hd] at h
  · exact absurd hp (hsound.busy_iff.mp hb)
  · exact (stepsLeft_after_check hb hp h).imp_right (⟨hp, ·⟩)
  all_goals left
  · rw [(exec_macB0_sequence h).stepsLeft_eq, stepsLeft_aadFrom hb (j := 0) fun _ => rfl, stepsLeft_of_phase hp,
      stepsLeft_macB0 hb]
    split <;> omega
  · have hk := hsound.aad_index hp
    have hle := nA_le s
    rw [(exec_macAad_sequence h).stepsLeft_eq, stepsLeft_aadFrom hb (toNat_succ_eq · hle), stepsLeft_of_phase_idx hp,
      stepsLeft_macAad hb]
    split <;> omega
  · have hk := hsound.pay_index hp
    have hle := nP_le s
    rw [(exec_macPay_sequence h).stepsLeft_eq, stepsLeft_payFrom hb (toNat_succ_eq · (by omega)),
      stepsLeft_of_phase_idx hp, stepsLeft_macPay hb]
    split <;> omega
  · rw [(exec_macFinal_sequence h).stepsLeft_eq, stepsLeft_enter_ite, stepsLeft_ksS0 hb, stepsLeft_tagMask hb,
      stepsLeft_of_phase hp, stepsLeft_macFinal hb]
    split_ifs <;> omega
  · rw [(exec_ksS0_sequence h).stepsLeft_eq, stepsLeft_ksFrom hb (j := 0) fun _ => rfl, stepsLeft_of_phase hp,
      stepsLeft_ksS0 hb]
    split <;> omega
  · obtain ⟨hfirst, hlast⟩ := hsound.ks_index hp
    have hle := nP_le s
    rw [(exec_ksBlk_sequence h).stepsLeft_eq,
      stepsLeft_ksFrom hb fun hk => toNat_succ_eq (Nat.succ_lt_succ hk) (by omega), stepsLeft_of_phase_idx hp,
      stepsLeft_ksBlk hb]
    split <;> omega
  · rw [(exec_tagMask_sequence h).stepsLeft_eq, stepsLeft_enter_ite, stepsLeft_fin hb, stepsLeft_ctCompare hb,
      stepsLeft_of_phase hp, stepsLeft_tagMask hb]
    split_ifs <;> rfl
  · rw [(exec_ctCompare_sequence h).stepsLeft_eq, stepsLeft_of_phase hp, stepsLeft_ctCompare hb, stepsLeft_fin hb]
  · cases h
    rw [stepsLeft_of_phase hp, stepsLeft_fin hb, stepsLeft_idle rfl]
  · cases h
    rw [stepsLeft_of_phase hp, stepsLeft_errfin hb, stepsLeft_idle rfl]
  · cases h

/-- So the steps left are none exactly between commands. -/
theorem stepsLeft_eq_zero_iff (hsound : Sound s) : stepsLeft s = 0 ↔ s.regs.status.busy = false := by
  refine ⟨fun hzero => Bool.eq_false_of_not_eq_true fun hb => ?_, stepsLeft_idle⟩
  obtain ⟨t, ht⟩ := exec_answers (decodePhase_ne_phaseRsvd hsound.phase_le) s
  obtain hone | ⟨hp, -⟩ := stepsLeft_after_exec hsound hb ht
  · omega
  · rw [stepsLeft_of_phase hp, stepsLeft_check hb] at hzero
    split at hzero <;> omega

/-- Either way fewer are left than before: a rejection, too, comes with six or more left. -/
theorem stepsLeft_lt (hb : s.regs.status.busy = true)
    (h : stepsLeft t + 1 = stepsLeft s ∨ s.w.phase = 0x1 ∧ stepsLeft t = 1) : stepsLeft t < stepsLeft s := by
  obtain hone | ⟨hp, hone⟩ := h
  · omega
  · rw [hone, stepsLeft_of_phase hp, stepsLeft_check hb]
    split <;> omega

/-! ### The turns -/

/-- The ENGINE's turn runs the micro-operation W.PHASE names, whether the turn was planned or drawn. -/
theorem step_engine_turn (hturn : nextTurn s = .engine) (hb : s.regs.status.busy = true) :
    ∃ e : Surroundings, e.resets = s.env.resets ∧ step s = exec (decodePhase s.w.phase) { s with env := e } := by
  obtain ⟨turn, ts, d, htake⟩ := takeTurn_eq s
  rw [nextTurn, htake] at hturn
  cases hturn
  exact ⟨{ s.env with turns := ts, draws := d }, rfl, by simp only [step, htake, hb, if_true]⟩

/-- Turns of the HOST and waits for the CIPHER leave the sequencer where it is, and a request on the port (R272). -/
structure Waits (s t : State) : Prop where
  sequence : SameSequence s t
  port : s.port ≠ none → t.port ≠ none

theorem Waits.refl (s : State) : Waits s s := ⟨by constructor <;> rfl, id⟩

theorem Waits.trans {u : State} (h : Waits s t) (h' : Waits t u) : Waits s u where
  sequence :=
    have ⟨op, phase, idx, keyLen, nLen, tLen, aLen, pLen, caps, busy⟩ := h.sequence
    have k := h'.sequence
    ⟨op.trans k.op, phase.trans k.phase, idx.trans k.idx, keyLen.trans k.keyLen, nLen.trans k.nLen, tLen.trans k.tLen,
      aLen.trans k.aLen, pLen.trans k.pLen, caps.trans k.caps, busy.trans k.busy⟩
  port := h'.port ∘ h.port

theorem Waits.busy (h : Waits s t) (hb : s.regs.status.busy = true) : t.regs.status.busy = true :=
  h.sequence.busy ▸ hb

theorem Waits.of_host (he : HostEffect s t) (hb : s.regs.status.busy = true) : Waits s t := by
  obtain ⟨wign, env, rfl, -⟩ := he.of_busy hb
  exact ⟨by constructor <;> rfl, id⟩

/-- A wait puts up a request where the current micro-operation has one, and otherwise leaves the port. -/
theorem Waits.of_wait (hb : s.regs.status.busy = true) : Waits s (raiseRequest s) := by
  refine ⟨?_, fun hport => ?_⟩
  · obtain ⟨q, hq⟩ := raiseRequest_eq s
    rw [hq]
    constructor <;> rfl
  · cases hx : cipherInput s with
    | none => rwa [raiseRequest_port_none hx]
    | some x => simp [raiseRequest_port_some hb hx]

theorem step_waits (hb : s.regs.status.busy = true) (hstep : step s = .next t)
    (hturn : nextTurn s = .host ∨ nextTurn s = .wait) : Waits s t := by
  obtain ⟨e, -, he⟩ := step_effect hstep
  have henv : Waits s { s with env := e } := ⟨by constructor <;> rfl, id⟩
  obtain hturn | hturn := hturn <;> rw [hturn] at he <;> cases he
  case inl he => exact henv.trans (.of_host he hb)
  case inr => exact henv.trans (.of_wait hb)

/-- A turn of the ENGINE takes one of the steps left, or rejects the command. -/
theorem stepsLeft_after_engine (hsound : Sound s) (hb : s.regs.status.busy = true) (hturn : nextTurn s = .engine)
    (hstep : step s = .next t) : stepsLeft t + 1 = stepsLeft s ∨ s.w.phase = 0x1 ∧ stepsLeft t = 1 := by
  obtain ⟨e, he, hexec⟩ := step_engine_turn hturn hb
  have htaken := stepsLeft_after_exec (s := { s with env := e }) (hsound.with_env he) hb (hexec.symm.trans hstep)
  exact htaken

end Sys2Proof.Machine
end

section
/-! PROOFS. Progress of a weakly fair run (R14, R272 of spec/70_reset_and_hazards.md): the ENGINE gets its turns, and
they lead to the completion. -/

namespace Sys2Proof.Machine

variable {s t u : State}

/-- The invariant holds all along a run. -/
theorem Sound.run (h : Sound s) {k : Nat} (hrun : Sys2Proof.core.run k s = .next t) : Sound t := by
  induction k generalizing s with
  | zero =>
    cases hrun
    exact h
  | succ k ih =>
    obtain ⟨u, hstep, hrest⟩ := step_of_run_succ hrun
    exact ih (stepKeepsTheInvariant s u h hstep) hrest

theorem run_succ_of_run {k : Nat} (hrun : Sys2Proof.core.run k s = .next t) (hstep : step t = .next u) :
    Sys2Proof.core.run (k + 1) s = .next u :=
  (run_add hrun 1).trans (run_succ_of_step hstep 0)

/-- The run comes to a turn of the ENGINE or a reset, and up to there the command waits. -/
def ReachesTurn (s : State) : Prop :=
  ∃ (k : Nat) (t : State), Sys2Proof.core.run k s = .next t ∧ Waits s t ∧ (nextTurn t = .engine ∨ nextTurn t = .reset)

theorem ReachesTurn.of_run {k : Nat} (hrun : Sys2Proof.core.run k s = .next t) (hw : Waits s t) (h : ReachesTurn t) :
    ReachesTurn s := by
  obtain ⟨j, u, hj, hwaits, hturn⟩ := h
  exact ⟨k + j, u, (run_add hrun j).trans hj, hw.trans hwaits, hturn⟩

/-- A run of an executing command either comes to such a turn or only waits. -/
theorem reachesTurn_or_waits (hb : s.regs.status.busy = true) {k : Nat} (hrun : Sys2Proof.core.run k s = .next t) :
    ReachesTurn s ∨ Waits s t := by
  induction k generalizing s with
  | zero =>
    cases hrun
    exact .inr (.refl _)
  | succ k ih =>
    obtain ⟨u, hstep, hrest⟩ := step_of_run_succ hrun
    have wait (hturn : nextTurn s = .host ∨ nextTurn s = .wait) : ReachesTurn s ∨ Waits s t := by
      have hw := step_waits hb hstep hturn
      exact (ih (hw.busy hb) hrest).imp (.of_run (run_succ_of_step hstep 0) hw) hw.trans
    cases hturn : nextTurn s with
    | host => exact wait (.inl hturn)
    | wait => exact wait (.inr hturn)
    | engine => exact .inl ⟨0, s, rfl, .refl s, .inl hturn⟩
    | reset => exact .inl ⟨0, s, rfl, .refl s, .inr hturn⟩

/-- What a micro-operation sends depends, of the surroundings, on the buffers' unknown contents alone (log 5). -/
theorem cipherInput_env {e : Surroundings} (h : e.resets = s.env.resets) :
    cipherInput { s with env := e } = cipherInput s := by
  obtain ⟨host, turns, returned, draws, resets⟩ := e
  cases h
  rfl

/-- A wait of a micro-operation that calls the cipher leaves its request on the port (R22). -/
theorem port_after_wait (hb : s.regs.status.busy = true) (hturn : nextTurn s = .wait) (hx : cipherInput s ≠ none)
    (hstep : step s = .next t) : t.port ≠ none := by
  obtain ⟨e, hresets, he⟩ := step_effect hstep
  rw [hturn] at he
  cases he
  obtain ⟨x, hx⟩ := Option.ne_none_iff_exists'.mp hx
  have hport := raiseRequest_port_some (s := { s with env := e }) hb ((cipherInput_env hresets).trans hx)
  exact hport ▸ Option.some_ne_none _

/-- In a weakly fair run the turn comes: a micro-operation that waits has a request on the port, and only such a turn
takes it away. -/
theorem WeaklyFair.reachesTurn (hf : WeaklyFair s) (hsound : Sound s) (hb : s.regs.status.busy = true) :
    ReachesTurn s := by
  obtain ⟨j, t, hrun, hsched⟩ := hf.scheduled 0 s rfl hb
  obtain hreach | hw := reachesTurn_or_waits hb hrun
  · exact hreach
  have hbt := hw.busy hb
  obtain hidle | hengine | ⟨hwait, hx⟩ := hsched
  · cases hbt.symm.trans hidle
  · exact ⟨j, t, hrun, hw, .inl hengine⟩
  obtain ⟨u, hstep⟩ := soundStateNeverStops t (hsound.run hrun)
  have hport := port_after_wait hbt hwait hx hstep
  have hrunu := run_succ_of_run hrun hstep
  have hwu := hw.trans (step_waits hbt hstep (.inr hwait))
  obtain ⟨i, v, hrunv, hanswered⟩ := hf.answered (j + 1) u hrunu hport
  obtain hreach | hwv := reachesTurn_or_waits (hwu.busy hb) hrunv
  · exact hreach.of_run hrunu hwu
  · exact absurd hanswered (hwv.port hport)

/-- The ENGINE's turn that ends a command is FIN or ERRFIN, and DONE is set in it. -/
theorem engine_completes (hb : s.regs.status.busy = true) (hturn : nextTurn s = .engine) (hstep : step s = .next t)
    (hidle : t.regs.status.busy = false) : (s.w.phase = 0xA ∨ s.w.phase = 0xB) ∧ t.regs.status.done = true := by
  obtain ⟨e, -, he⟩ := step_effect hstep
  rw [hturn] at he
  cases he with
  | rest h => cases hb.symm.trans h
  | engine _ he =>
    obtain hsame | ⟨hphase, hdone, -⟩ := he.status
    · simp [hsame, hb] at hidle
    · exact ⟨hphase, hdone⟩

/-- The run comes to the command's completion or to a reset. -/
def ReachesEnd (s : State) : Prop :=
  ∃ (k : Nat) (t u : State), Sys2Proof.core.run k s = .next t ∧ t.regs.status.busy = true ∧ step t = .next u ∧
    (nextTurn t = .reset ∨
      nextTurn t = .engine ∧ (t.w.phase = 0xA ∨ t.w.phase = 0xB) ∧ u.regs.status.busy = false ∧
        u.regs.status.done = true)

theorem ReachesEnd.of_run {k : Nat} (hrun : Sys2Proof.core.run k s = .next t) (h : ReachesEnd t) : ReachesEnd s := by
  obtain ⟨j, u, v, hj, hend⟩ := h
  exact ⟨k + j, u, v, (run_add hrun j).trans hj, hend⟩

/-- By induction on the steps left, one turn of the ENGINE after the other. -/
theorem WeaklyFair.reachesEnd (hf : WeaklyFair s) (hsound : Sound s) (hb : s.regs.status.busy = true) :
    ReachesEnd s := by
  induction hn : stepsLeft s using Nat.strong_induction_on generalizing s with
  | _ n ih =>
    obtain ⟨k, t, hrun, hw, hturn⟩ := hf.reachesTurn hsound hb
    have hsoundt := hsound.run hrun
    have hbt := hw.busy hb
    obtain ⟨u, hstep⟩ := soundStateNeverStops t hsoundt
    obtain hengine | hreset := hturn
    · cases hbu : u.regs.status.busy with
      | false =>
        obtain ⟨hphase, hdone⟩ := engine_completes hbt hengine hstep hbu
        exact ⟨k, t, u, hrun, hbt, hstep, .inr ⟨hengine, hphase, hbu, hdone⟩⟩
      | true =>
        have hrunu := run_succ_of_run hrun hstep
        have hless : stepsLeft u < n :=
          hn ▸ hw.sequence.stepsLeft_eq ▸ stepsLeft_lt hbt (stepsLeft_after_engine hsoundt hbt hengine hstep)
        exact (ih _ hless (hf.of_run hrunu) (hsound.run hrunu) hbu rfl).of_run hrunu
    · exact ⟨k, t, u, hrun, hbt, hstep, .inl hreset⟩

/-- Settles O52: the count of steps left, turn by turn, and the induction on it along a weakly fair run. -/
theorem engineTurnsReachCompletion : Obligations.EngineTurnsReachCompletion := by
  intro s hsound
  refine ⟨stepsLeft_eq_zero_iff hsound, fun t turn ts hturn hstep hb => ?_, fun hb hf => hf.reachesEnd hsound hb⟩
  have hnext := nextTurn_planned hturn
  constructor
  · rintro rfl
    exact stepsLeft_after_engine hsound hb hnext hstep
  · intro hwait
    exact (step_waits hb hstep (hnext ▸ hwait)).sequence.stepsLeft_eq.symm

end Sys2Proof.Machine
end

section
/-! PROOFS. The steps in which the model's choice stands for what the spec leaves open: a turn that is not planned
(R14 of spec/00_scope.md; log 1) and an IDLE code (R192 of spec/44_orchestration_compare.md; log 10). -/

namespace Sys2Proof.Machine

variable {s : State}

/-- `s` with its next turn drawn and planned, and the draw counted. -/
def planDrawnTurn (s : State) : State :=
  { s with env := { s.env with turns := [Config.anyTurn s.env.draws], draws := s.env.draws + 1 } }

/-- Drawing a turn as it is taken comes to the same as drawing it beforehand and using it up. -/
theorem takeTurn_unplanned (h : s.env.turns = []) :
    takeTurn s = (Config.anyTurn s.env.draws, withTurns (planDrawnTurn s) []) := by
  simp [takeTurn, withTurns, planDrawnTurn, h]

/-- Settles O7: a step looks at the planned turns only through the turn it takes. -/
theorem unplannedTurnIsDrawn : Obligations.UnplannedTurnIsDrawn := by
  intro s h
  have hplanned : takeTurn (planDrawnTurn s) = (Config.anyTurn s.env.draws, withTurns (planDrawnTurn s) []) :=
    takeTurn_planned rfl
  change step s = step (planDrawnTurn s)
  rw [step, step, takeTurn_unplanned h, hplanned]

/-- Settles O29: the meaning of IDLE is to answer the state it is given. -/
theorem idleChangesNothing : Obligations.IdleChangesNothing := fun _ => rfl

end Sys2Proof.Machine
end
